-- ==== Sys2Proof/Word.lean ====
section
/-! DEFINITION. The widths of the packer's words (10_state.md R22, 30_encoding.md R70). -/

namespace Sys2Proof

/-- A byte of the buffer, and the register PART (R22, R24). -/
abbrev Byte := BitVec 8

/-- A register as the read port shows it, and `rd_data` (R35, R70). -/
abbrev Word := BitVec 32

/-- A command word, `cmd_word` (R70, R74). -/
abbrev CommandWord := BitVec 64

/-- A read request Q = {rd_space, rd_addr}, with rd_space in bit 32 (R82). -/
abbrev ReadWord := BitVec 33

end Sys2Proof
end

