-- ==== Sys2Proof/Config.lean ====
section
/-! DEFINITION. What a build of the packer fixes (00_scope.md R8) and the values the spec leaves free. -/

namespace Sys2Proof

/-- The parameters of one packer. BUF_BYTES is "a named parameter the model takes as an argument" (R8). LATENCY (R11)
is not here: no value depends on it (R199), log 2. -/
structure Config where
  /-- BUF_BYTES: the capacity of the buffer in bytes. -/
  bufBytes : Nat
  deriving DecidableEq, Repr

/-- 1 ≤ BUF_BYTES ≤ 2^28 (R8). -/
abbrev Config.legal (c : Config) : Prop := 1 ≤ c.bufBytes ∧ c.bufBytes ≤ 2 ^ 28

/-- FREE VALUE: what a read taken while BUSY = 1 or rst = 1 returns (R200: "a model treats it as any value"), one value
per draw (log 5). -/
opaque Config.hazardRead : Nat → Word

/-- FREE VALUE: the content of a buffer byte that nothing has written, by index (R31: unspecified). Only a state that
breaks R42 or R43 can show it (log 6). -/
opaque Config.unwrittenByte : Nat → Byte

end Sys2Proof
end

