-- ==== Sys2Proof/Syntax.lean ====
section
/-! DEFINITION. The instructions: one constructor for each row of spec/opcode_table.json (30_encoding.md R75, R82). -/

namespace Sys2Proof

/-- The commands and the two reads. Fields that R78 says are ignored are no part of an instruction (R86). -/
inductive Instr where
  /-- NOP (R120). -/
  | nop
  /-- PUSH n, data (R100): n = LEN, data = DATA. Whether n is legal is checked at execution (R86). -/
  | push (len : BitVec 6) (data : Word)
  /-- FINALIZE (R106). -/
  | finalize
  /-- CLEAR (R122). -/
  | clear
  /-- A reserved opcode 0x4 to 0x7 (R79), with its OP field (R86). -/
  | reserved47 (op : BitVec 4)
  /-- A reserved opcode 0x8 to 0xF (R79), with its OP field (R86). -/
  | reserved8F (op : BitVec 4)
  /-- READ_REG i (R130). -/
  | readReg (index : Word)
  /-- READ_BUF i (R132). -/
  | readBuf (index : Word)
  deriving DecidableEq, Repr

/-- What the host puts on one of the packer's two ports: a command word (R74) or a read request (R82). -/
inductive Request where
  | command (w : CommandWord)
  | read (q : ReadWord)
  deriving DecidableEq, Repr

end Sys2Proof
end

