-- ==== Sys2Proof/Machine/State.lean ====
section
/-! DEFINITION. The packer's state (10_state.md R22, R34, R46, R49), the ways a step can stop, and the state after reset. -/

namespace Sys2Proof.Machine

/-- The buffer BUF (R31, R51) as the list of the bytes written, by rising index. An index not listed holds no value: the
spec leaves its content unspecified (R31, R53; log 6). -/
abbrev Memory := List Host.Cell

/-- What the host does next at the packer's pins (R70). -/
inductive HostAction where
  /-- Present a request: a command with cmd_valid = 1, its word held until accepted (R71, R197) and then completed; or a
  read taken now (R72). -/
  | present (r : Request)
  /-- Present a command for one rising edge only; what follows may fall before it completes (R71, R197, R198). -/
  | offer (w : CommandWord)
  /-- Present nothing and let the clock run, until a command in flight has completed (R178, R198). -/
  | idle
  /-- Drive rst = 1 over a rising edge, and keep it there (R190). -/
  | raiseRst
  /-- Drive rst = 0 (R192). -/
  | releaseRst
  deriving DecidableEq, Repr

/-- The machine's state. -/
structure State where
  /-- BUF_BYTES (R8), constant, read as CAPACITY (R32); log 1. -/
  cfg : Config
  /-- FILL (R23): the number of bits in the partial byte. -/
  fill : BitVec 3
  /-- PART (R24): the partial byte, left-aligned. -/
  part : Byte
  /-- BYTE_COUNT (R25). -/
  byteCount : Word
  /-- TOTAL_BITS (R26). -/
  totalBits : Word
  /-- PADDING (R27). -/
  padding : BitVec 3
  /-- DONE (R28). -/
  done : Bool
  /-- ERR (R29). -/
  err : Bool
  /-- ERRCODE (R30). -/
  errCode : BitVec 3
  /-- BUF (R31). -/
  buf : Memory
  /-- The command accepted and not yet completed (R198). BUSY (R34) is 1 while there is one. -/
  inFlight : Option CommandWord
  /-- The level of the input rst (R190). -/
  rst : Bool
  /-- The host's coming actions, oldest first. The MODEL's field (log 3). -/
  inputs : List HostAction
  /-- rd_data as the host sampled it at its last read (R72). The MODEL's field (log 4). -/
  rdData : Word
  /-- Which free value an unspecified read takes next (R200). The MODEL's field (log 5). -/
  draws : Nat
  deriving DecidableEq, Repr

/-- The errors a command records (R161); E_NONE is the absence of one. -/
inductive ErrorCode where
  /-- E_OP: a reserved opcode. -/
  | op
  /-- E_LEN: PUSH with LEN = 0 or LEN > 32. -/
  | len
  /-- E_DONE: PUSH or FINALIZE after the stream was finalized. -/
  | done
  /-- E_OVF: PUSH that would exceed the capacity. -/
  | ovf
  deriving DecidableEq, Repr

/-- Why the machine stops. The packer itself has no trap (R160): its errors are recorded and are next states. -/
inductive Fault where
  /-- Raised by PUSH and FINALIZE: a BufWrite at an index ≥ BUF_BYTES, which R52 says never happens. Safe: the model stops
  only in states that break R42 to R44, where the spec gives no effect (log 8). -/
  | bufferIndex
  deriving DecidableEq, Repr

/-- Why an instruction has no meaning. Raised by no arm of this model. -/
inductive Refusal where
  /-- Raised by `exec` for an instruction without a meaning yet: safe. None is left. -/
  | notModelled (mnemonic : String)
  deriving DecidableEq, Repr

/-- The outcome of an instruction. -/
abbrev Result := Host.Outcome State Fault Refusal

/-- What one step does: run an instruction, or only change what the pins say (no command completes and no read is taken). -/
inductive Turn where
  | run (i : Instr) (s : State)
  | settle (s : State)
  deriving DecidableEq, Repr

/-- The state after reset of a packer with given parameters: every register 0 (R46), BUF unspecified, BUSY = 0 and rst
released (R192). `inputs`, `rdData` and `draws` are the model's own (logs 3, 4, 5). -/
def State.resetWith (cfg : Config) : State where
  cfg := cfg
  fill := 0
  part := 0
  byteCount := 0
  totalBits := 0
  padding := 0
  done := false
  err := false
  errCode := 0
  buf := []
  inFlight := none
  rst := false
  inputs := []
  rdData := 0
  draws := 0

/-- The state after reset, for BUF_BYTES = 16. DESIGN CHOICE (log 1): the spec leaves BUF_BYTES open (R8) and uses 16 in its
test vectors; every statement that quantifies over states holds for every BUF_BYTES. -/
def State.reset : State := State.resetWith ⟨16⟩

end Sys2Proof.Machine
end

