-- ==== Sys2Proof/Machine/Flags.lean ====
section
/-! DEFINITION. Error codes, STATUS and the status outputs (10_state.md R30, R36; 60_exceptions.md R161, R170). -/

namespace Sys2Proof.Machine

/-- The ERRCODE value of an error (R161). -/
def errorBits : ErrorCode → BitVec 3
  | .op => 1
  | .len => 2
  | .done => 3
  | .ovf => 4

/-- STATUS = zext_32({ERR, DONE}): bit 0 DONE, bit 1 ERR (R36). -/
def statusWord (s : State) : Word := (BitVec.ofBool s.err ++ BitVec.ofBool s.done).setWidth 32

/-- The output done_o (R73). -/
def doneOut (s : State) : Bool := s.done

/-- The output err_o (R73). -/
def errOut (s : State) : Bool := s.err

/-- BUSY: a command is in flight (R34). -/
def busy (s : State) : Bool := s.inFlight.isSome

/-- The output cmd_ready: 0 while rst = 1 and while BUSY = 1, else 1 (R71). -/
def cmdReady (s : State) : Bool := !s.rst && !busy s

end Sys2Proof.Machine
end

