-- ==== Sys2Proof/Machine/Operands.lean ====
section
/-! DEFINITION. Bit strings (00_scope.md R14), the operands of PUSH (30_encoding.md R76, R77) and the barrel shifter's
intermediate values (40_stream_commands.md R101). Natural numbers as R15 says. -/

namespace Sys2Proof.Machine

/-- bits_n(v): the n-bit string of v, most significant bit first (R14). -/
def bitsOf : Nat → Nat → List Bool
  | 0, _ => []
  | n + 1, v => v.testBit n :: bitsOf n v

/-- val(s): the number whose binary digits, most significant first, are s (R14). -/
def valOf (s : List Bool) : Nat := s.foldl (fun v b => 2 * v + b.toNat) 0

/-- ceil(a / 8) = (a + 7) div 8 (R15). -/
def ceilDiv8 (a : Nat) : Nat := (a + 7) / 8

/-- 1 ≤ LEN ≤ 32 (R76). -/
abbrev lenLegal (len : BitVec 6) : Prop := 1 ≤ len.toNat ∧ len.toNat ≤ 32

/-- data[n-1:0]; DATA[31:n] is ignored (R77). -/
def pushCode (n : Nat) (data : Word) : Nat := data.toNat % 2 ^ n

/-- The bit string a PUSH of legal length appends, c = bits_n(DATA[n-1:0]) (R77). -/
def pushBits (len : BitVec 6) (data : Word) : List Bool := bitsOf len.toNat (pushCode len.toNat data)

/-- acc of R101: the valid bits of the partial byte, PART[7 : 8-FILL]. -/
def partialValue (s : State) : Nat :=
  if s.fill = 0 then 0 else s.part.toNat >>> (8 - s.fill.toNat)

/-- w of R101: the partial bits, then the n bits of the code. -/
def shifterValue (s : State) (n code : Nat) : Nat := partialValue s <<< n ||| code

/-- w[t-1-8j : t-8-8j] of R101: whole byte j of the t bits of w. -/
def wholeByte (w t j : Nat) : Byte := BitVec.ofNat 8 (w >>> (t - 8 - 8 * j))

/-- The k whole bytes of the t bits of w, in stream order (R101). -/
def wholeBytes (w t k : Nat) : List Byte := (List.range k).map (wholeByte w t)

/-- The new PART of R101: the last r bits of w, left-aligned, or 0x00. -/
def remainderByte (w r : Nat) : Byte :=
  if r = 0 then 0 else BitVec.ofNat 8 ((w % 2 ^ r) <<< (8 - r))

end Sys2Proof.Machine
end

