-- ==== Sys2Proof/Machine/Ops.lean ====
section
/-! DEFINITION. The buffer's BufRead and BufWrite (20_memory.md R52, R53), recording an error (60_exceptions.md R163) and
clearing it (R167), reset (70_reset_and_hazards.md R191) and taking a read (R72, R200). -/

namespace Sys2Proof.Machine

/-- What an index that is not listed reads as: no value, its content is unspecified (R31; log 6). -/
def Memory.unlisted : Option Byte := none

/-- The byte last written at an index. -/
def Memory.read (i : Nat) : Memory → Option Byte
  | [] => Memory.unlisted
  | (j, b) :: m => if i = j then some b else Memory.read i m

/-- Write a byte, keeping the indices strictly rising. -/
def Memory.write (i : Nat) (b : Byte) : Memory → Memory
  | [] => [(i, b)]
  | (j, c) :: m =>
    if i < j then (i, b) :: (j, c) :: m
    else if i = j then (i, b) :: m
    else (j, c) :: Memory.write i b m

/-- The canonical form: strictly rising indices. No entry can equal what an unlisted index reads as, which is no value. -/
abbrev Memory.wf (m : Memory) : Prop := m.Pairwise fun x y => x.1 < y.1

/-- BufWrite(i, b) for i < BUF_BYTES (R16, R52); there is no byte at any other index. -/
def bufWrite (cap i : Nat) (b : Byte) (m : Memory) : Option Memory :=
  if i < cap then some (Memory.write i b m) else none

/-- BufWrite of bytes at rising indices from i on: the loop of R101. -/
def bufWriteAll (cap : Nat) : Nat → List Byte → Memory → Option Memory
  | _, [], m => some m
  | i, b :: bs, m =>
    match bufWrite cap i b m with
    | some m' => bufWriteAll cap (i + 1) bs m'
    | none => none

/-- BufRead(i) (R53). A byte that nothing has written has an unspecified content (log 6). -/
def bufRead (i : Nat) (s : State) : Byte :=
  match Memory.read i s.buf with
  | some b => b
  | none => Config.unwrittenByte i

/-- The state `raise Error(code)` leaves: the state before the command, plus ERR and ERRCODE (R163). -/
def recordError (c : ErrorCode) (s : State) : State := { s with err := true, errCode := errorBits c }

/-- raise Error(code) (R163): the packer's one form of exception entry. Nothing else is saved and control goes nowhere
(R160, R166). -/
def raiseError (c : ErrorCode) (s : State) : Result := .next (recordError c s)

/-- The way back from an error (R167): every register of R22 to its value of R46; BUF is left as it is (R122). -/
def clearStream (s : State) : State :=
  { s with
    fill := 0, part := 0, byteCount := 0, totalBits := 0, padding := 0, done := false, err := false, errCode := 0 }

/-- A command that ERR = 1 blocks: ignored then (R164), `body` otherwise. -/
def unlessErr (s : State) (body : Result) : Result := if s.err then .next s else body

/-- The registers and the buffer after a successful PUSH (R101). -/
def advance (k r n : Nat) (rest : Byte) (m : Memory) (s : State) : State :=
  { s with
    part := rest
    fill := BitVec.ofNat 3 r
    byteCount := BitVec.ofNat 32 (s.byteCount.toNat + k)
    totalBits := BitVec.ofNat 32 (s.totalBits.toNat + n)
    buf := m }

/-- The barrel shifter (R101): join the partial byte with the n bits of the code, write every whole byte, keep the rest. -/
def appendBits (n code : Nat) (s : State) : Result :=
  let t := s.fill.toNat + n
  let w := shifterValue s n code
  match bufWriteAll s.cfg.bufBytes s.byteCount.toNat (wholeBytes w t (t / 8)) s.buf with
  | some m => .next (advance (t / 8) (t % 8) n (remainderByte w (t % 8)) m s)
  | none => .fault .bufferIndex

/-- Close the stream (R106): FILL 0, PART 0x00, DONE 1, with the given PADDING, BYTE_COUNT and buffer. -/
def closeStream (pad : BitVec 3) (count : Word) (m : Memory) (s : State) : State :=
  { s with padding := pad, byteCount := count, buf := m, fill := 0, part := 0, done := true }

/-- Flush the partial byte and close the stream (R106). -/
def flush (s : State) : Result :=
  if s.fill = 0 then .next (closeStream 0 s.byteCount s.buf s)
  else
    match bufWrite s.cfg.bufBytes s.byteCount.toNat s.part s.buf with
    | some m =>
      .next (closeStream (BitVec.ofNat 3 (8 - s.fill.toNat)) (BitVec.ofNat 32 (s.byteCount.toNat + 1)) m s)
    | none => .fault .bufferIndex

/-- A read taken now: the given value when cmd_ready = 1 and rst = 0; while BUSY = 1 or rst = 1 any value (R200; log 5). -/
def sampleRead (v : Word) (s : State) : State :=
  if cmdReady s then { s with rdData := v }
  else { s with rdData := Config.hazardRead s.draws, draws := s.draws + 1 }

/-- Reset at a rising edge with rst = 1 (R191): every register to R46, a command in flight abandoned, BUF unspecified
(log 7). -/
def resetPacker (s : State) : State := { clearStream s with inFlight := none, buf := [] }

end Sys2Proof.Machine
end

