-- ==== Sys2Proof/Machine/Control.lean ====
section
/-! DEFINITION. The control commands NOP and CLEAR (41_control_commands.md) and the reserved opcodes (30_encoding.md R79). -/

namespace Sys2Proof.Machine

/-- NOP (R120): no state changes, in every state. -/
def execNop (s : State) : Result := .next s

/-- CLEAR (R122): executes in every state; BUF is not changed. -/
def execClear (s : State) : Result := .next (clearStream s)

/-- A reserved opcode 0x4 to 0x7: E_OP when ERR = 0, ignored when ERR = 1 (R79). -/
def execReserved47 (_op : BitVec 4) (s : State) : Result := unlessErr s (raiseError .op s)

/-- A reserved opcode 0x8 to 0xF: E_OP when ERR = 0, ignored when ERR = 1 (R79). -/
def execReserved8F (_op : BitVec 4) (s : State) : Result := unlessErr s (raiseError .op s)

end Sys2Proof.Machine
end

