-- ==== Sys2Proof/Machine/Reads.lean ====
section
/-! DEFINITION. The host reads READ_REG and READ_BUF (42_host_reads.md). -/

namespace Sys2Proof.Machine

/-- ID_VALUE (00_scope.md R10). -/
def idValue : Word := 0x42500001

/-- The register map (R35, R130); an index from 0x9 on reads 0 (R38). -/
def registerValue (i : Word) (s : State) : Word :=
  match i.toNat with
  | 0 => idValue
  | 1 => s.errCode.setWidth 32
  | 2 => s.byteCount
  | 3 => s.totalBits
  | 4 => s.fill.setWidth 32
  | 5 => s.part.setWidth 32
  | 6 => s.padding.setWidth 32
  | 7 => BitVec.ofNat 32 s.cfg.bufBytes
  | 8 => statusWord s
  | _ => 0

/-- READ_BUF's value: BufRead(i) zero-extended for i < BYTE_COUNT, else 0 (R132). -/
def bufferValue (i : Word) (s : State) : Word :=
  if i.toNat < s.byteCount.toNat then (bufRead i.toNat s).setWidth 32 else 0

/-- READ_REG i (R130; R200 while BUSY = 1 or rst = 1). -/
def execReadReg (i : Word) (s : State) : Result := .next (sampleRead (registerValue i s) s)

/-- READ_BUF i (R132; R200 while BUSY = 1 or rst = 1). -/
def execReadBuf (i : Word) (s : State) : Result := .next (sampleRead (bufferValue i s) s)

end Sys2Proof.Machine
end

