-- ==== Sys2Proof/Machine/Stream.lean ====
section
/-! DEFINITION. The stream commands PUSH and FINALIZE (40_stream_commands.md). -/

namespace Sys2Proof.Machine

/-- PUSH n, data (R101), its errors in the order of R103 and R165. -/
def execPush (len : BitVec 6) (data : Word) (s : State) : Result :=
  unlessErr s <|
    if s.done then raiseError .done s
    else if ¬ lenLegal len then raiseError .len s
    else if s.cfg.bufBytes < ceilDiv8 (s.totalBits.toNat + len.toNat) then raiseError .ovf s
    else appendBits len.toNat (pushCode len.toNat data) s

/-- FINALIZE (R106), its errors in the order of R110. -/
def execFinalize (s : State) : Result :=
  unlessErr s <| if s.done then raiseError .done s else flush s

end Sys2Proof.Machine
end

