-- ==== Sys2Proof/Machine/Dispatch.lean ====
section
/-! DEFINITION. One arm per instruction. -/

namespace Sys2Proof.Machine

def exec (i : Instr) (s : State) : Host.Outcome State Fault Refusal :=
  match i with
  | .nop => Sys2Proof.Machine.execNop s
  | .push len data => Sys2Proof.Machine.execPush len data s
  | .finalize => Sys2Proof.Machine.execFinalize s
  | .clear => Sys2Proof.Machine.execClear s
  | .reserved47 op => Sys2Proof.Machine.execReserved47 op s
  | .reserved8F op => Sys2Proof.Machine.execReserved8F op s
  | .readReg index => Sys2Proof.Machine.execReadReg index s
  | .readBuf index => Sys2Proof.Machine.execReadBuf index s

end Sys2Proof.Machine
end

