-- ==== Sys2Proof/WellFormed.lean ====
section
/-! DEFINITION. Which terms of `Instr` an encoding stands for. -/

namespace Sys2Proof

/-- A reserved opcode carries an OP of its own row of the opcode table (R75, R79); every other term is well formed: every
LEN, DATA and index has an encoding (R74, R82). -/
def Instr.wellFormed : Instr → Bool
  | .nop => true
  | .push _ _ => true
  | .finalize => true
  | .clear => true
  | .reserved47 op => decide (4 ≤ op.toNat ∧ op.toNat ≤ 7)
  | .reserved8F op => decide (8 ≤ op.toNat)
  | .readReg _ => true
  | .readBuf _ => true

end Sys2Proof
end

