-- ==== Sys2Proof/Decode.lean ====
section
/-! DEFINITION. Decoder and encoder (30_encoding.md R74, R75, R82, R86). -/

namespace Sys2Proof

/-- OP, bits [63:60] (R74). -/
def opField (w : CommandWord) : BitVec 4 := w.extractLsb' 60 4

/-- LEN, bits [37:32] (R74). -/
def lenField (w : CommandWord) : BitVec 6 := w.extractLsb' 32 6

/-- DATA, bits [31:0] (R74). -/
def dataField (w : CommandWord) : Word := w.extractLsb' 0 32

/-- rd_space, bit 32 of a read request: 0 register space, 1 buffer space (R82). -/
def spaceField (q : ReadWord) : BitVec 1 := q.extractLsb' 32 1

/-- rd_addr, bits [31:0] of a read request (R82). -/
def addrField (q : ReadWord) : Word := q.extractLsb' 0 32

/-- The decoder, total on all 2^64 command words (R86). -/
def decodeCommand (w : CommandWord) : Instr :=
  if opField w = 0x0 then .nop
  else if opField w = 0x1 then .push (lenField w) (dataField w)
  else if opField w = 0x2 then .finalize
  else if opField w = 0x3 then .clear
  else if (opField w).toNat ≤ 7 then .reserved47 (opField w)
  else .reserved8F (opField w)

/-- Every one of the 2^33 request words is a legal read (R82). -/
def decodeRead (q : ReadWord) : Instr :=
  if spaceField q = 0 then .readReg (addrField q) else .readBuf (addrField q)

/-- "No word is undecodable" (R86). -/
def decode : Request → Instr
  | .command w => decodeCommand w
  | .read q => decodeRead q

/-- One word of format CMD64 with RSV written as zero (R74, R78). -/
def commandWord (op : BitVec 4) (len : BitVec 6) (data : Word) : CommandWord :=
  op ++ (0 : BitVec 22) ++ len ++ data

/-- The canonical words (R80, R83): what R78 says is ignored is written as zero. -/
def encode : Instr → Request
  | .nop => .command (commandWord 0x0 0 0)
  | .push len data => .command (commandWord 0x1 len data)
  | .finalize => .command (commandWord 0x2 0 0)
  | .clear => .command (commandWord 0x3 0 0)
  | .reserved47 op => .command (commandWord op 0 0)
  | .reserved8F op => .command (commandWord op 0 0)
  | .readReg i => .read ((0 : BitVec 1) ++ i)
  | .readBuf i => .read ((1 : BitVec 1) ++ i)

/-- The row's name in spec/opcode_table.json. -/
def Instr.mnemonic : Instr → String
  | .nop => "NOP"
  | .push _ _ => "PUSH"
  | .finalize => "FINALIZE"
  | .clear => "CLEAR"
  | .reserved47 _ => "RESERVED_4_7"
  | .reserved8F _ => "RESERVED_8_F"
  | .readReg _ => "READ_REG"
  | .readBuf _ => "READ_BUF"

/-- A CMD64 row of spec/opcode_table.json: the words w with w AND mask = match. -/
structure CommandRow where
  mnemonic : String
  mask : CommandWord
  value : CommandWord
  deriving DecidableEq, Repr

/-- A word has the row's fixed bits. -/
abbrev CommandRow.matches (r : CommandRow) (w : CommandWord) : Prop := w &&& r.mask = r.value

/-- The six CMD64 rows of spec/opcode_table.json. -/
def commandTable : List CommandRow :=
  [⟨"NOP", 0xF000000000000000, 0x0000000000000000⟩,
   ⟨"PUSH", 0xF000000000000000, 0x1000000000000000⟩,
   ⟨"FINALIZE", 0xF000000000000000, 0x2000000000000000⟩,
   ⟨"CLEAR", 0xF000000000000000, 0x3000000000000000⟩,
   ⟨"RESERVED_4_7", 0xC000000000000000, 0x4000000000000000⟩,
   ⟨"RESERVED_8_F", 0x8000000000000000, 0x8000000000000000⟩]

/-- Why a table word is no request of either port; neither port has such words (R74, R82), so this is no behaviour of the
packer. -/
inductive DecodeError where
  /-- The number of bits is neither CMD64's nor RD33's. -/
  | widthOfNoFormat (nbits : Nat)
  /-- A bit is set above the format's last bit. -/
  | bitsAboveFormat (nbits w : Nat)
  deriving DecidableEq, Repr

/-- A word as spec/opcode_table.json numbers it, given to the port of its format: 33 bits in whole bytes are at most 40
(RD33), a command word has 64 (CMD64) (log 15). -/
def requestOfTableWord (nbits w : Nat) : Except DecodeError Request :=
  if nbits ≤ 40 then
    if w < 2 ^ 33 then .ok (.read (BitVec.ofNat 33 w)) else .error (.bitsAboveFormat nbits w)
  else if nbits ≤ 64 then
    if w < 2 ^ 64 then .ok (.command (BitVec.ofNat 64 w)) else .error (.bitsAboveFormat nbits w)
  else .error (.widthOfNoFormat nbits)

/-- The instruction the decoder reads from a word of the opcode table. -/
def decodeTableWord (nbits w : Nat) : Option Instr :=
  match requestOfTableWord nbits w with
  | .ok r => some (decode r)
  | .error _ => none

end Sys2Proof
end

