-- ==== Sys2Proof/Machine/Port.lean ====
section
/-! DEFINITION. The command port, the read port and the reset input (30_encoding.md R70 to R72, 70_reset_and_hazards.md
R190 to R200): what the next step does. -/

namespace Sys2Proof.Machine

/-- The clock runs with no command presented: rst = 1 resets (R190); else a command in flight completes (R198); else the
packer holds its state (R178). -/
def idleTurn (s : State) : Turn :=
  if s.rst then .settle (resetPacker s)
  else match s.inFlight with
    | some w => .run (decodeCommand w) { s with inFlight := none }
    | none => .settle s

/-- A command is presented and held (R71, R197). `s` still has it in `inputs`, `rest` is what follows. With rst = 1 it is not
accepted (R192; log 11); while another command is in flight it waits until that one has completed; else it is accepted and
completes. -/
def commandTurn (w : CommandWord) (rest : List HostAction) (s : State) : Turn :=
  if s.rst then .settle (resetPacker { s with inputs := rest })
  else match s.inFlight with
    | some w₀ => .run (decodeCommand w₀) { s with inFlight := none }
    | none => .run (decodeCommand w) { s with inputs := rest }

/-- A command is presented for one rising edge: accepted if cmd_ready = 1, and then in flight; else it has no effect (R71,
R197). -/
def offerTurn (w : CommandWord) (s : State) : Turn :=
  if s.rst then .settle (resetPacker s)
  else match s.inFlight with
    | some _ => .settle s
    | none => .settle { s with inFlight := some w }

/-- What the next step does: the host's next action, or nothing more from the host. -/
def nextTurn (s : State) : Turn :=
  match s.inputs with
  | [] => idleTurn s
  | .present (.command w) :: rest => commandTurn w rest s
  | .present (.read q) :: rest => .run (decodeRead q) { s with inputs := rest }
  | .offer w :: rest => offerTurn w { s with inputs := rest }
  | .idle :: rest => idleTurn { s with inputs := rest }
  | .raiseRst :: rest => .settle (resetPacker { s with inputs := rest, rst := true })
  | .releaseRst :: rest => .settle { s with inputs := rest, rst := false }

/-- The state in which the host presents a request next, and the packer can take it (R71): for a command rst = 0 and no
command in flight. -/
def presentNext (r : Request) (s : State) : State :=
  match r with
  | .command w =>
    { s with inputs := .present (.command w) :: s.inputs, inFlight := none, rst := false }
  | .read q => { s with inputs := .present (.read q) :: s.inputs }

end Sys2Proof.Machine
end

