-- ==== Sys2Proof/Machine/Step.lean ====
section
/-! DEFINITION. One step: one action of the host, or one completed command (00_scope.md R4, 70_reset_and_hazards.md R199). -/

namespace Sys2Proof.Machine

/-- One step of the packer. -/
def step (s : State) : Host.Outcome State Fault Refusal :=
  match nextTurn s with
  | .run i s' => exec i s'
  | .settle s' => .next s'

/-- The state whose next step runs the instruction of a word of spec/opcode_table.json: the host presents it next (log 3). -/
def State.withFetchWord (s : State) (nbits w : Nat) : State :=
  match requestOfTableWord nbits w with
  | .ok r => presentNext r s
  | .error _ => s

end Sys2Proof.Machine
end

