-- ==== Sys2Proof/Machine/Assembler.lean ====
section
/-! DEFINITION. The assembler (30_encoding.md R83, R84): the lines of a command stream, what each one puts on the ports, and
how a line is read from its text. The packer itself sees words only. -/

namespace Sys2Proof.Machine

/-- One line of a listing: a command, a host read (R83) or a pseudo-instruction (R84). -/
inductive AsmLine where
  | nop
  | push (n v : Nat)
  | finalize
  | clear
  | cmd (w : Nat)
  | rdreg (i : Nat)
  | rdbuf (i : Nat)
  | pushs (s : List Bool)
  | emit8 (b : Nat)
  | restart
  deriving DecidableEq, Repr

/-- Why the assembler refuses a line. -/
inductive AsmError where
  /-- PUSH with n outside 1 to 32 (R83). -/
  | pushLength
  /-- PUSH with v ≥ 2^n (R83). -/
  | pushValue
  /-- `.cmd` with a number of more than 64 bits (R83). -/
  | wordRange
  /-- A read's index of more than 32 bits (R82). -/
  | indexRange
  /-- PUSHS of the empty string (R84). -/
  | emptyString
  /-- EMIT8 with b > 255 (R84). -/
  | byteRange
  /-- A line of no form of R83 or R84. -/
  | notALine
  deriving DecidableEq, Repr

/-- The word of `PUSH n, v`: (0x1 << 60) | (n << 32) | v (R83). -/
def pushWord (n v : Nat) : Except AsmError Request :=
  if ¬ (1 ≤ n ∧ n ≤ 32) then .error .pushLength
  else if 2 ^ n ≤ v then .error .pushValue
  else .ok (.command (BitVec.ofNat 64 (0x1 <<< 60 ||| n <<< 32 ||| v)))

/-- The chunks t_1 … t_m of a bit string, 32 bits each but for the last (R84); `fuel` is the string's length. -/
def chunks32 : Nat → List Bool → List (List Bool)
  | 0, _ => []
  | _, [] => []
  | fuel + 1, s => s.take 32 :: chunks32 fuel (s.drop 32)

/-- Assemble the commands of a list, in order; the first refusal refuses all. -/
def pushWords : List (Nat × Nat) → Except AsmError (List Request)
  | [] => .ok []
  | (n, v) :: rest =>
    match pushWord n v, pushWords rest with
    | .ok r, .ok rs => .ok (r :: rs)
    | .error e, _ => .error e
    | .ok _, .error e => .error e

/-- What a line puts on the ports, in order (R83, R84). -/
def assembleLine : AsmLine → Except AsmError (List Request)
  | .nop => .ok [.command 0x0000000000000000]
  | .push n v => pushWords [(n, v)]
  | .finalize => .ok [.command 0x2000000000000000]
  | .clear => .ok [.command 0x3000000000000000]
  | .cmd w => if w < 2 ^ 64 then .ok [.command (BitVec.ofNat 64 w)] else .error .wordRange
  | .rdreg i => if i < 2 ^ 32 then .ok [.read (BitVec.ofNat 33 i)] else .error .indexRange
  | .rdbuf i => if i < 2 ^ 32 then .ok [.read (BitVec.ofNat 33 (2 ^ 32 + i))] else .error .indexRange
  | .pushs s =>
    if s = [] then .error .emptyString
    else pushWords ((chunks32 s.length s).map fun t => (t.length, valOf t))
  | .emit8 b => if b ≤ 255 then pushWords [(8, b)] else .error .byteRange
  | .restart => .ok [.command 0x3000000000000000]

/-! ### Text (log 13) -/

/-- The value of a digit in a base. DESIGN CHOICE (log 13): a hexadecimal digit is taken in either letter case, on which the spec
is silent (R13, R83). -/
def digitValue (base : Nat) (c : Char) : Option Nat :=
  let v :=
    if '0' ≤ c ∧ c ≤ '9' then some (c.toNat - '0'.toNat)
    else if 'a' ≤ c ∧ c ≤ 'f' then some (c.toNat - 'a'.toNat + 10)
    else if 'A' ≤ c ∧ c ≤ 'F' then some (c.toNat - 'A'.toNat + 10)
    else none
  v.bind fun d => if d < base then some d else none

/-- Digits in a base after a number read so far; `_` separates digits (R13). DESIGN CHOICE (log 13): `_` is skipped wherever it
stands among the digits, also before the first, after the last and doubled, where R13 says only "inside a literal"; at least one
digit must be there. -/
def digitsFrom (base : Nat) : Option Nat → List Char → Option Nat
  | v, [] => v
  | v, '_' :: cs => digitsFrom base v cs
  | v, c :: cs =>
    match digitValue base c with
    | some d => digitsFrom base (some (v.getD 0 * base + d)) cs
    | none => none

/-- A number: decimal, `0x…` or `0b…` (R83). DESIGN CHOICE (log 13): the prefix is taken in lower case only, as R13 and R83 write
it. -/
def parseNumber : List Char → Option Nat
  | '0' :: 'x' :: cs => digitsFrom 16 none cs
  | '0' :: 'b' :: cs => digitsFrom 2 none cs
  | cs => digitsFrom 10 none cs

/-- A bit string, first bit leftmost (R14). -/
def parseBits : List Char → Option (List Bool)
  | [] => some []
  | '0' :: cs => (parseBits cs).map (false :: ·)
  | '1' :: cs => (parseBits cs).map (true :: ·)
  | _ :: _ => none

/-- The parts of a line. -/
inductive Token where
  | word (cs : List Char)
  | comma
  | quoted (cs : List Char)
  deriving DecidableEq, Repr

/-- A word that ends here, if one was begun (its characters are kept last first). -/
def endWord (cs : List Char) (rest : List Token) : List Token :=
  if cs = [] then rest else .word cs.reverse :: rest

/-- The tokens of a line: `some acc` inside a quoted string, `none` outside; `;` starts a comment (R83). -/
def tokens : Option (List Char) → List Char → List Char → Option (List Token)
  | none, cs, [] => some (endWord cs [])
  | some _, _, [] => none
  | some acc, cs, c :: rest =>
    if c = '"' then (tokens none cs rest).map (.quoted acc.reverse :: ·)
    else tokens (some (c :: acc)) cs rest
  | none, cs, c :: rest =>
    if c = ';' then some (endWord cs [])
    else if c = ' ' ∨ c = '\t' then (tokens none [] rest).map (endWord cs ·)
    else if c = ',' then (tokens none [] rest).map fun ts => endWord cs (.comma :: ts)
    else if c = '"' then (tokens (some []) [] rest).map (endWord cs ·)
    else tokens none (c :: cs) rest

/-- A line with one numeric operand. -/
def oneOperand (f : Nat → AsmLine) (v : List Char) : Except AsmError (Option AsmLine) :=
  match parseNumber v with
  | some n => .ok (some (f n))
  | none => .error .notALine

/-- `PUSH n, v`. -/
def twoOperands (n v : List Char) : Except AsmError (Option AsmLine) :=
  match parseNumber n, parseNumber v with
  | some n, some v => .ok (some (.push n v))
  | _, _ => .error .notALine

/-- The line that a list of tokens writes; none for an empty line (R83, R84). -/
def lineOfTokens : List Token → Except AsmError (Option AsmLine)
  | [] => .ok none
  | [.word m] =>
    if m = "NOP".toList then .ok (some .nop)
    else if m = "FINALIZE".toList then .ok (some .finalize)
    else if m = "CLEAR".toList then .ok (some .clear)
    else if m = "RESTART".toList then .ok (some .restart)
    else .error .notALine
  | [.word m, .word v] =>
    if m = ".cmd".toList then oneOperand .cmd v
    else if m = "RDREG".toList then oneOperand .rdreg v
    else if m = "RDBUF".toList then oneOperand .rdbuf v
    else if m = "EMIT8".toList then oneOperand .emit8 v
    else .error .notALine
  | [.word m, .word n, .comma, .word v] =>
    if m = "PUSH".toList then twoOperands n v else .error .notALine
  | [.word m, .quoted s] =>
    if m = "PUSHS".toList then
      match parseBits s with
      | some bits => .ok (some (.pushs bits))
      | none => .error .notALine
    else .error .notALine
  | _ => .error .notALine

/-- One line of text. -/
def parseLine (cs : List Char) : Except AsmError (Option AsmLine) :=
  match tokens none [] cs with
  | some ts => lineOfTokens ts
  | none => .error .notALine

/-- The lines of a text. -/
def splitLines : List Char → List Char → List (List Char)
  | acc, [] => [acc.reverse]
  | acc, c :: cs => if c = '\n' then acc.reverse :: splitLines [] cs else splitLines (c :: acc) cs

/-- What a list of text lines puts on the ports, in order. -/
def assembleLines : List (List Char) → Except AsmError (List Request)
  | [] => .ok []
  | l :: ls =>
    match parseLine l, assembleLines ls with
    | .error e, _ => .error e
    | .ok none, rest => rest
    | .ok (some a), rest =>
      match assembleLine a, rest with
      | .ok rs, .ok more => .ok (rs ++ more)
      | .error e, _ => .error e
      | .ok _, .error e => .error e

/-- A whole listing, one command per line (R83). -/
def assembleText (text : List Char) : Except AsmError (List Request) := assembleLines (splitLines [] text)

end Sys2Proof.Machine
end

