-- ==== Sys2Proof/Safety.lean ====
section
/-! DEFINITION. The terms the statements use: the stream S (10_state.md R40, R42), the invariants (R41 to R45), the `pack`
contract (00_scope.md R2), the result (40_stream_commands.md R112), runs of instructions, and what a host can observe. -/

namespace Sys2Proof.Machine

/-! ### The stream and the result -/

/-- The bits of bytes, MSB-first and in order: bits_8(b_0) ++ bits_8(b_1) ++ … (R14, R54). -/
def bitsOfBytes (bs : List Byte) : List Bool := bs.flatMap fun b => bitsOf 8 b.toNat

/-- BUF[0 .. BYTE_COUNT-1]; after FINALIZE the source's packedBytes (R112). -/
def State.packedBytes (s : State) : List Byte := (List.range s.byteCount.toNat).map fun i => bufRead i s

/-- bits_FILL(PART[7 : 8-FILL]), the stream bits that are only in PART (R42, R202). -/
def State.partialBits (s : State) : List Bool := (bitsOf 8 s.part.toNat).take s.fill.toNat

/-- The stream S as the hardware holds it: the first TOTAL_BITS of BUF's bits and the partial byte's (R42, R43). -/
def State.stream (s : State) : List Bool := (bitsOfBytes s.packedBytes ++ s.partialBits).take s.totalBits.toNat

/-- The source's `pack` (R2): the bits in bytes MSB-first, the last byte zero-padded on the low end, and the padding count.
Written over the bits alone, without a state. `fuel` is at least the number of bytes. -/
def packBytes : Nat → List Bool → List Byte
  | 0, _ => []
  | _, [] => []
  | fuel + 1, s => BitVec.ofNat 8 (valOf (s.take 8 ++ List.replicate (8 - s.length) false)) :: packBytes fuel (s.drop 8)

/-- `pack(bitstring) -> byte sequence, paddingBits` (R2). -/
def pack (s : List Bool) : List Byte × Nat := (packBytes s.length s, (8 - s.length % 8) % 8)

/-- What the Decoder does first (R108): drop the padding bits from the bytes' bits. -/
def unpack (bs : List Byte) (padding : Nat) : List Bool := (bitsOfBytes bs).take (8 * bs.length - padding)

/-! ### Invariants -/

/-- R41 to R45, R27, R30 and the buffer's form, after every completed command and after reset. -/
structure Invariant (s : State) : Prop where
  /-- 1 ≤ BUF_BYTES ≤ 2^28 (R8). -/
  config_legal : s.cfg.legal
  /-- PART[7-FILL : 0] = 0 (R41). -/
  part_aligned : s.part.toNat % 2 ^ (8 - s.fill.toNat) = 0
  /-- While DONE = 0, TOTAL_BITS = 8 · BYTE_COUNT + FILL (R42). -/
  open_count : s.done = false → s.totalBits.toNat = 8 * s.byteCount.toNat + s.fill.toNat
  /-- Before FINALIZE, PADDING is 0 (R27). -/
  open_padding : s.done = false → s.padding = 0
  /-- While DONE = 1, FILL = 0 (R43). -/
  closed_fill : s.done = true → s.fill = 0
  /-- While DONE = 1, PADDING = 8 · BYTE_COUNT - TOTAL_BITS (R43). -/
  closed_count : s.done = true → 8 * s.byteCount.toNat = s.totalBits.toNat + s.padding.toNat
  /-- While DONE = 1, the padding bits of the last byte are zero (R43). -/
  closed_zero : s.done = true → ∀ b, Memory.read (s.byteCount.toNat - 1) s.buf = some b →
    b.toNat % 2 ^ s.padding.toNat = 0
  /-- ceil(TOTAL_BITS / 8) ≤ BUF_BYTES (R44). -/
  capacity : ceilDiv8 s.totalBits.toNat ≤ s.cfg.bufBytes
  /-- ERR = 0 if and only if ERRCODE = 0 (R45). -/
  err_iff : s.err = false ↔ s.errCode = 0
  /-- ERRCODE values 5 to 7 are never written (R30). -/
  err_range : s.errCode.toNat ≤ 4
  /-- The buffer's list is in canonical form. -/
  buf_wf : Memory.wf s.buf
  /-- Every byte below BYTE_COUNT has been written (R25). -/
  buf_written : ∀ i < s.byteCount.toNat, (Memory.read i s.buf).isSome
  /-- No byte has been written beyond the capacity (R52). -/
  buf_range : ∀ c ∈ s.buf, c.1 < s.cfg.bufBytes

/-- Every register of R22 holds its reset value (R46). -/
abbrev AtReset (s : State) : Prop :=
  s.fill = 0 ∧ s.part = 0 ∧ s.byteCount = 0 ∧ s.totalBits = 0 ∧ s.padding = 0 ∧ s.done = false ∧ s.err = false ∧
    s.errCode = 0

/-- While rst = 1 the packer stays reset and no command is in flight (R190 to R192). -/
abbrev PortInv (s : State) : Prop := s.rst = true → AtReset s ∧ s.inFlight = none

/-! ### Runs -/

/-- Instructions one after the other, stopping at the first that does not complete (R64, R198). -/
def execAll : List Instr → State → Result
  | [], s => .next s
  | i :: is, s =>
    match exec i s with
    | .next t => execAll is t
    | .fault f => .fault f
    | .refused r => .refused r

/-- The PUSH commands of a list of operands. -/
def pushes (ps : List (BitVec 6 × Word)) : List Instr := ps.map fun p => .push p.1 p.2

/-- A PUSH, or NOP where there is none. -/
def pushOrNop : Option (BitVec 6 × Word) → Instr
  | none => .nop
  | some p => .push p.1 p.2

/-- The stream a list of PUSH operands carries, c_1 ++ … ++ c_k (R40). -/
def streamOf (ps : List (BitVec 6 × Word)) : List Bool := ps.flatMap fun p => pushBits p.1 p.2

/-- Every length is legal (R76). -/
abbrev AllLegal (ps : List (BitVec 6 × Word)) : Prop := ∀ p ∈ ps, lenLegal p.1

/-! ### What a host can observe -/

/-- Two states that no sequence of reads can tell apart, and that take the same inputs: equal but for buffer bytes at
indices ≥ BYTE_COUNT, which are unspecified (R31, R53, R115). -/
def Indistinguishable (s t : State) : Prop :=
  t = { s with buf := t.buf } ∧ ∀ i < s.byteCount.toNat, Memory.read i t.buf = Memory.read i s.buf

/-- The same, apart from the model's own fields: the host's coming actions, what it has sampled, and the count of free values
(logs 3, 4, 5). -/
def SameObservably (s t : State) : Prop :=
  Indistinguishable { s with inputs := [], rdData := 0, draws := 0 } { t with inputs := [], rdData := 0, draws := 0 }

/-- Two outcomes that both complete, in states related by R. -/
def BothNext (R : State → State → Prop) (a b : Result) : Prop :=
  ∃ s t, a = .next s ∧ b = .next t ∧ R s t

end Sys2Proof.Machine
end

