-- ==== Sys2Proof/Certificates/Slice0/Obligations.lean ====
section
/-! DEFINITION. The statements for the provers. Each docstring names the rule of spec/ it rests on. -/

open Sys2Proof Sys2Proof.Machine

/-! ### Encoding -/

/-- R87: the four words the spec writes out, for the assembler and for the decoder. -/
def Obligations.ExampleWordsAssembleAndDecode : Prop :=
  assembleLine (.push 1 0) = .ok [.command 0x1000000100000000] ∧
  decode (.command 0x1000000100000000) = .push 1 0 ∧
  assembleLine (.push 4 0b1110) = .ok [.command 0x100000040000000E] ∧
  decode (.command 0x100000040000000E) = .push 4 0b1110 ∧
  assembleLine (.push 32 0xDEADBEEF) = .ok [.command 0x10000020DEADBEEF] ∧
  decode (.command 0x10000020DEADBEEF) = .push 32 0xDEADBEEF ∧
  assembleLine (.cmd 0x5000000000000000) = .ok [.command 0x5000000000000000] ∧
  decode (.command 0x5000000000000000) = .reserved47 5

/-- R86: the decoder as the spec writes it, over the word as a number. A reserved word's execution records E_OP (R79). -/
def Obligations.DecoderIsTheSpecsTotalMap : Prop :=
  ∀ w : CommandWord,
    (w.toNat / 2 ^ 60 = 0 → decodeCommand w = .nop) ∧
    (w.toNat / 2 ^ 60 = 1 →
      decodeCommand w = .push (BitVec.ofNat 6 (w.toNat / 2 ^ 32 % 2 ^ 6)) (BitVec.ofNat 32 (w.toNat % 2 ^ 32))) ∧
    (w.toNat / 2 ^ 60 = 2 → decodeCommand w = .finalize) ∧
    (w.toNat / 2 ^ 60 = 3 → decodeCommand w = .clear) ∧
    (4 ≤ w.toNat / 2 ^ 60 → w.toNat / 2 ^ 60 ≤ 7 →
      decodeCommand w = .reserved47 (BitVec.ofNat 4 (w.toNat / 2 ^ 60))) ∧
    (8 ≤ w.toNat / 2 ^ 60 → decodeCommand w = .reserved8F (BitVec.ofNat 4 (w.toNat / 2 ^ 60))) ∧
    (4 ≤ w.toNat / 2 ^ 60 → ∀ s : State, s.err = false →
      exec (decodeCommand w) s = .next { s with err := true, errCode := 1 })

/-- R82: every request word is a read, of the space that bit 32 selects, at the index in bits [31:0]. -/
def Obligations.EveryRequestWordIsARead : Prop :=
  ∀ q : ReadWord,
    (q.toNat / 2 ^ 32 = 0 → decodeRead q = .readReg (BitVec.ofNat 32 (q.toNat % 2 ^ 32))) ∧
    (q.toNat / 2 ^ 32 = 1 → decodeRead q = .readBuf (BitVec.ofNat 32 (q.toNat % 2 ^ 32))) ∧
    q.toNat / 2 ^ 32 ≤ 1

/-- Decoding the canonical word of a well-formed instruction gives it back (R74, R82, R86). -/
def Obligations.DecodeOfEncodeIsTheInstruction : Prop :=
  ∀ i : Instr, i.wellFormed = true → decode (encode i) = i

/-- The other direction (R78): what the decoder gives is well formed, and encoding it gives the word back with the ignored
fields zero; a read request is given back whole. -/
def Obligations.EncodeOfDecodeZeroesIgnoredFields : Prop :=
  (∀ r : Request, (decode r).wellFormed = true) ∧
  (∀ w : CommandWord, w.toNat / 2 ^ 60 = 1 → encode (decodeCommand w) = .command (w &&& 0xF000003FFFFFFFFF)) ∧
  (∀ w : CommandWord, w.toNat / 2 ^ 60 ≠ 1 → encode (decodeCommand w) = .command (w &&& 0xF000000000000000)) ∧
  (∀ q : ReadWord, encode (decodeRead q) = .read q)

/-- R78: RSV is ignored by every command, LEN and DATA by every command but PUSH. -/
def Obligations.IgnoredFieldsHaveNoEffect : Prop :=
  ∀ (w v : CommandWord) (s : State), w.toNat / 2 ^ 60 = v.toNat / 2 ^ 60 →
    (w.toNat / 2 ^ 60 = 1 → w.toNat % 2 ^ 38 = v.toNat % 2 ^ 38) →
    exec (decodeCommand w) s = exec (decodeCommand v) s

/-- opcode_table.json: a word has a row's fixed bits exactly when it decodes to the row's instruction. -/
def Obligations.DecoderFollowsTheOpcodeTable : Prop :=
  ∀ w : CommandWord, ∀ r ∈ commandTable, r.matches w ↔ (decodeCommand w).mnemonic = r.mnemonic

/-! ### PUSH -/

/-- R101: PUSH, in every case: ignored, the errors in their order, and without error the barrel shifter, register by register
and byte by byte, its frame, and the stream it leaves. -/
def Obligations.PushIsTheBarrelShifter : Prop :=
  ∀ (len : BitVec 6) (data : Word) (s : State) (n acc t w : Nat), n = len.toNat →
    acc = (if s.fill = 0 then 0 else s.part.toNat / 2 ^ (8 - s.fill.toNat)) →
    t = s.fill.toNat + n → w = acc * 2 ^ n + data.toNat % 2 ^ n →
    (s.err = true → exec (.push len data) s = .next s) ∧
    (s.err = false → s.done = true → exec (.push len data) s = .next { s with err := true, errCode := 3 }) ∧
    (s.err = false → s.done = false → n = 0 ∨ 32 < n →
      exec (.push len data) s = .next { s with err := true, errCode := 2 }) ∧
    (s.err = false → s.done = false → 1 ≤ n → n ≤ 32 → s.cfg.bufBytes < (s.totalBits.toNat + n + 7) / 8 →
      exec (.push len data) s = .next { s with err := true, errCode := 4 }) ∧
    (Invariant s → s.err = false → s.done = false → 1 ≤ n → n ≤ 32 → (s.totalBits.toNat + n + 7) / 8 ≤ s.cfg.bufBytes →
      ∃ u, exec (.push len data) s = .next u ∧
        u = { s with
          fill := u.fill, part := u.part, byteCount := u.byteCount, totalBits := u.totalBits, buf := u.buf } ∧
        u.fill.toNat = t % 8 ∧
        u.part.toNat = (if t % 8 = 0 then 0 else w % 2 ^ (t % 8) * 2 ^ (8 - t % 8)) ∧
        u.byteCount.toNat = s.byteCount.toNat + t / 8 ∧
        u.totalBits.toNat = s.totalBits.toNat + n ∧
        (∀ j < t / 8, Memory.read (s.byteCount.toNat + j) u.buf = some (BitVec.ofNat 8 (w / 2 ^ (t - 8 - 8 * j)))) ∧
        (∀ a, a < s.byteCount.toNat ∨ s.byteCount.toNat + t / 8 ≤ a → Memory.read a u.buf = Memory.read a s.buf) ∧
        u.stream = s.stream ++ pushBits len data ∧ Invariant u)

/-- R77: the string appended is DATA[n-1], …, DATA[0] in stream order; DATA[31:n] has no effect and gives no error. -/
def Obligations.PushAppendsDataBitsHighestFirst : Prop :=
  ∀ (len : BitVec 6) (data : Word) (s : State), Invariant s → s.err = false → s.done = false → lenLegal len →
    ceilDiv8 (s.totalBits.toNat + len.toNat) ≤ s.cfg.bufBytes →
    ∃ u, exec (.push len data) s = .next u ∧ u.err = false ∧
      u.stream = s.stream ++ (List.range len.toNat).map (fun j => data.getLsbD (len.toNat - 1 - j)) ∧
      ∀ data' : Word, (∀ j < len.toNat, data'.getLsbD j = data.getLsbD j) → exec (.push len data') s = .next u

/-- R103: PUSH's errors in their order, and what a successful PUSH writes. -/
def Obligations.PushErrorsInOrderAndFlagsKept : Prop :=
  ∀ (len : BitVec 6) (data : Word) (s : State),
    (s.err = true → exec (.push len data) s = .next s) ∧
    (s.err = false → s.done = true → exec (.push len data) s = .next { s with err := true, errCode := 3 }) ∧
    (s.err = false → s.done = false → len.toNat = 0 ∨ 32 < len.toNat →
      exec (.push len data) s = .next { s with err := true, errCode := 2 }) ∧
    (s.err = false → s.done = false → 1 ≤ len.toNat → len.toNat ≤ 32 →
      s.cfg.bufBytes < (s.totalBits.toNat + len.toNat + 7) / 8 →
      exec (.push len data) s = .next { s with err := true, errCode := 4 }) ∧
    (Invariant s → s.err = false → s.done = false → 1 ≤ len.toNat → len.toNat ≤ 32 →
      (s.totalBits.toNat + len.toNat + 7) / 8 ≤ s.cfg.bufBytes →
      ∃ u k, exec (.push len data) s = .next u ∧
        u = { s with
          fill := u.fill, part := u.part, byteCount := u.byteCount, totalBits := u.totalBits, buf := u.buf } ∧
        k ≤ 4 ∧ u.byteCount.toNat = s.byteCount.toNat + k ∧
        ∀ a, a < s.byteCount.toNat ∨ s.byteCount.toNat + k ≤ a → Memory.read a u.buf = Memory.read a s.buf)

/-- R102: the capacity check counts the padded byte; a PUSH that fills the buffer exactly succeeds; after a successful PUSH
the FINALIZE has room. -/
def Obligations.PushCapacityCheckLeavesRoomForFinalize : Prop :=
  ∀ (len : BitVec 6) (data : Word) (s : State), Invariant s → s.err = false → s.done = false → lenLegal len →
    (s.cfg.bufBytes < (s.totalBits.toNat + len.toNat + 7) / 8 →
      exec (.push len data) s = .next { s with err := true, errCode := 4 }) ∧
    ((s.totalBits.toNat + len.toNat + 7) / 8 ≤ s.cfg.bufBytes →
      ∃ u v, exec (.push len data) s = .next u ∧ u.err = false ∧
        u.totalBits.toNat = s.totalBits.toNat + len.toNat ∧
        exec .finalize u = .next v ∧ v.done = true ∧ v.err = false)

/-! ### FINALIZE -/

/-- R106, R110: FINALIZE in every case, its syntax and words, and its frame. -/
def Obligations.FinalizeFlushesAndCloses : Prop :=
  (∀ w : CommandWord, w.toNat / 2 ^ 60 = 2 → decodeCommand w = .finalize) ∧
  encode .finalize = .command 0x2000000000000000 ∧
  assembleText "FINALIZE".toList = .ok [encode .finalize] ∧
  Instr.finalize.mnemonic = "FINALIZE" ∧
  ∀ s : State,
    (s.err = true → exec .finalize s = .next s) ∧
    (s.err = false → s.done = true → exec .finalize s = .next { s with err := true, errCode := 3 }) ∧
    (s.err = false → s.done = false → s.fill = 0 →
      exec .finalize s = .next { s with padding := 0, fill := 0, part := 0, done := true }) ∧
    (Invariant s → s.err = false → s.done = false → s.fill ≠ 0 →
      ∃ u, exec .finalize s = .next u ∧
        u = { s with
          byteCount := u.byteCount, padding := u.padding, fill := 0, part := 0, done := true, buf := u.buf } ∧
        u.byteCount.toNat = s.byteCount.toNat + 1 ∧
        u.padding.toNat = 8 - s.fill.toNat ∧
        Memory.read s.byteCount.toNat u.buf = some s.part ∧
        s.part.toNat % 2 ^ (8 - s.fill.toNat) = 0 ∧
        ∀ a, a ≠ s.byteCount.toNat → Memory.read a u.buf = Memory.read a s.buf)

/-- R109: FINALIZE's corner cases: the empty stream, whole bytes, FILL = 7 and FILL = 1, a final byte of zeros. -/
def Obligations.FinalizeCornerCases : Prop :=
  ∀ s : State, Invariant s → s.err = false → s.done = false →
    ∃ u, exec .finalize s = .next u ∧ u.done = true ∧ u.err = false ∧
      (s.totalBits = 0 → u.byteCount = 0 ∧ u.padding = 0 ∧ u.buf = s.buf) ∧
      (s.totalBits.toNat % 8 = 0 → u.byteCount = s.byteCount ∧ u.padding = 0 ∧ u.buf = s.buf) ∧
      (s.fill = 7 → u.padding = 1) ∧
      (s.fill = 1 → u.padding = 7) ∧
      (s.totalBits.toNat % 8 ≠ 0 → s.part = 0 →
        u.byteCount.toNat = s.byteCount.toNat + 1 ∧ Memory.read s.byteCount.toNat u.buf = some 0)

/-- R114: PADDING after FINALIZE, and with it the size law's BYTE_COUNT (R113). -/
def Obligations.FinalizePaddingLaw : Prop :=
  ∀ s : State, Invariant s → s.err = false → s.done = false →
    ∃ u, exec .finalize s = .next u ∧ u.totalBits = s.totalBits ∧
      u.padding.toNat = (8 - u.totalBits.toNat % 8) % 8 ∧
      (u.padding = 0 ↔ u.totalBits.toNat % 8 = 0) ∧
      u.byteCount.toNat = (u.totalBits.toNat + 7) / 8

/-- R108: after FINALIZE the stream is recovered from the packed bytes and the padding count, and what is dropped is zero. -/
def Obligations.PackedBytesGiveTheStreamBack : Prop :=
  ∀ s : State, Invariant s → s.err = false → s.done = false →
    ∃ u, exec .finalize s = .next u ∧
      unpack u.packedBytes u.padding.toNat = s.stream ∧
      (bitsOfBytes u.packedBytes).drop (8 * u.byteCount.toNat - u.padding.toNat) =
        List.replicate u.padding.toNat false

/-! ### NOP, CLEAR and the reserved opcodes -/

/-- R120: NOP changes nothing, in every state, whatever its other bits; its syntax and canonical word. -/
def Obligations.NopChangesNothing : Prop :=
  encode .nop = .command 0 ∧
  assembleText "NOP".toList = .ok [encode .nop] ∧
  Instr.nop.mnemonic = "NOP" ∧
  ∀ s : State, exec .nop s = .next s ∧
    ∀ w : CommandWord, w.toNat / 2 ^ 60 = 0 → exec (decodeCommand w) s = .next s

/-- R122: CLEAR, whatever its other bits, writes every register to its reset value in every state, leaves the buffer, and alone
clears an error; its syntax and canonical word. -/
def Obligations.ClearResetsTheStreamAndAloneClearsErrors : Prop :=
  encode .clear = .command 0x3000000000000000 ∧
  assembleText "CLEAR".toList = .ok [encode .clear] ∧ assembleText "RESTART".toList = .ok [encode .clear] ∧
  Instr.clear.mnemonic = "CLEAR" ∧
  (∀ w : CommandWord, w.toNat / 2 ^ 60 = 3 → decodeCommand w = .clear) ∧
  ∀ s : State,
    (∃ u, exec .clear s = .next u ∧
      u = { s with
        fill := 0, part := 0, byteCount := 0, totalBits := 0, padding := 0, done := false, err := false, errCode := 0 } ∧
      AtReset u ∧ u.stream = []) ∧
    (∀ i u, s.err = true → exec i s = .next u → u.err = false → i = .clear)

/-- R79: a reserved opcode records E_OP when ERR = 0 and is ignored when ERR = 1; every word with OP 0x4 to 0xF is one. -/
def Obligations.ReservedOpcodesRecordEOp : Prop :=
  ∀ s : State,
    (∀ op, exec (.reserved47 op) s = .next (if s.err then s else { s with err := true, errCode := 1 })) ∧
    (∀ op, exec (.reserved8F op) s = .next (if s.err then s else { s with err := true, errCode := 1 })) ∧
    (∀ w : CommandWord, 4 ≤ w.toNat / 2 ^ 60 →
      exec (decodeCommand w) s = .next (if s.err then s else { s with err := true, errCode := 1 }))

/-! ### Errors -/

/-- R163: a command that records an error changes ERR and ERRCODE and nothing else. -/
def Obligations.ErrorsArePrecise : Prop :=
  ∀ (i : Instr) (s u : State), s.err = false → exec i s = .next u → u.err = true →
    u = { s with err := true, errCode := u.errCode } ∧
      (u.errCode = 1 ∨ u.errCode = 2 ∨ u.errCode = 3 ∨ u.errCode = 4)

/-- R162: which commands record which error, over all instructions; NOP, CLEAR and the reads record none. -/
def Obligations.ErrorsHaveExactlyTheirCauses : Prop :=
  ∀ (i : Instr) (s u : State), s.err = false → exec i s = .next u →
    ((u.err = true ∧ u.errCode = 1) ↔ ((∃ op, i = .reserved47 op) ∨ ∃ op, i = .reserved8F op)) ∧
    ((u.err = true ∧ u.errCode = 2) ↔
      ∃ len data, i = .push len data ∧ s.done = false ∧ (len.toNat = 0 ∨ 33 ≤ len.toNat)) ∧
    ((u.err = true ∧ u.errCode = 3) ↔ s.done = true ∧ (i = .finalize ∨ ∃ len data, i = .push len data)) ∧
    ((u.err = true ∧ u.errCode = 4) ↔
      ∃ len data, i = .push len data ∧ s.done = false ∧ 1 ≤ len.toNat ∧ len.toNat ≤ 32 ∧
        s.cfg.bufBytes < (s.totalBits.toNat + len.toNat + 7) / 8) ∧
    (i = .nop ∨ i = .clear ∨ (∃ x, i = .readReg x) ∨ (∃ x, i = .readBuf x) → u.err = false)

/-- R164: while ERR = 1, PUSH, FINALIZE, NOP and the reserved opcodes change nothing, CLEAR clears ERR, reads work. -/
def Obligations.StickyErrorFreezesTheStream : Prop :=
  ∀ s : State, s.err = true →
    (∀ len data, exec (.push len data) s = .next s) ∧
    exec .finalize s = .next s ∧
    exec .nop s = .next s ∧
    (∀ op, exec (.reserved47 op) s = .next s) ∧
    (∀ op, exec (.reserved8F op) s = .next s) ∧
    (∃ u, exec .clear s = .next u ∧ AtReset u) ∧
    (cmdReady s = true → ∀ i, exec (.readReg i) s = .next { s with rdData := registerValue i s }) ∧
    (cmdReady s = true → ∀ i, exec (.readBuf i) s = .next { s with rdData := bufferValue i s })

/-- R168: the first error wins: over every step, an error once recorded keeps its code, but for CLEAR and reset. -/
def Obligations.TheFirstErrorWins : Prop :=
  ∀ s t : State, step s = .next t → s.err = true →
    (t.err = true ∧ t.errCode = s.errCode) ∨ (∃ u, nextTurn s = .run .clear u) ∨ t.rst = true

/-- R47: the only writers of DONE, ERR, ERRCODE and PADDING; reset is the other (ResetClearsEveryRegister). -/
def Obligations.FlagsHaveOnlyTheirWriters : Prop :=
  ∀ (i : Instr) (s u : State), exec i s = .next u →
    (u.done ≠ s.done → (i = .finalize ∧ u.done = true) ∨ (i = .clear ∧ u.done = false)) ∧
    (u.err ≠ s.err → (i = .clear ∧ u.err = false) ∨ (u.err = true ∧ u = { s with err := true, errCode := u.errCode })) ∧
    (u.errCode ≠ s.errCode → i = .clear ∨ (s.err = false ∧ u.err = true)) ∧
    (u.padding ≠ s.padding → i = .finalize ∨ i = .clear) ∧
    (i = .nop ∨ (∃ x, i = .readReg x) ∨ (∃ x, i = .readBuf x) →
      u = { s with rdData := u.rdData, draws := u.draws })

/-- The frame of all eight instructions: none writes the parameter, the command in flight, the pin or the host's inputs; only
reads write `rdData`, and only reads taken while BUSY = 1 or rst = 1 take a free value (R20, R32, R47, R200). -/
def Obligations.InstructionsLeavePortsAlone : Prop :=
  ∀ (i : Instr) (s u : State), exec i s = .next u →
    u.cfg = s.cfg ∧ u.inFlight = s.inFlight ∧ u.rst = s.rst ∧ u.inputs = s.inputs ∧
    (u.rdData ≠ s.rdData → (∃ x, i = .readReg x) ∨ ∃ x, i = .readBuf x) ∧
    (u.draws ≠ s.draws → cmdReady s = false ∧ u.draws = s.draws + 1 ∧ ((∃ x, i = .readReg x) ∨ ∃ x, i = .readBuf x)) ∧
    (u.buf ≠ s.buf → i = .finalize ∨ ∃ len data, i = .push len data)

/-! ### Reads -/

/-- R130: the register map, with every index from 0x9 on reading 0 (R38); nothing else changes but what the
host has sampled (the model's `rdData`, log 4); its request and syntax. -/
def Obligations.ReadRegReturnsTheRegisterMap : Prop :=
  (∀ i : Word, decodeRead (BitVec.ofNat 33 i.toNat) = .readReg i ∧
    assembleLine (.rdreg i.toNat) = .ok [.read (BitVec.ofNat 33 i.toNat)]) ∧
  parseLine "RDREG 0x6".toList = .ok (some (.rdreg 6)) ∧
  (Instr.readReg 0).mnemonic = "READ_REG" ∧
  ∀ (i : Word) (s : State), cmdReady s = true →
    ∃ v : Word, exec (.readReg i) s = .next { s with rdData := v } ∧
      (i.toNat = 0x0 → v = 0x42500001) ∧
      (i.toNat = 0x1 → v.toNat = s.errCode.toNat) ∧
      (i.toNat = 0x2 → v = s.byteCount) ∧
      (i.toNat = 0x3 → v = s.totalBits) ∧
      (i.toNat = 0x4 → v.toNat = s.fill.toNat) ∧
      (i.toNat = 0x5 → v.toNat = s.part.toNat) ∧
      (i.toNat = 0x6 → v.toNat = s.padding.toNat) ∧
      (i.toNat = 0x7 → v = BitVec.ofNat 32 s.cfg.bufBytes) ∧
      (i.toNat = 0x8 → v.toNat = 2 * s.err.toNat + s.done.toNat) ∧
      (0x9 ≤ i.toNat → v = 0)

/-- R132: a written byte zero-extended below BYTE_COUNT, 0 from BYTE_COUNT on; nothing else changes but
what the host has sampled (the model's `rdData`, log 4); its request and syntax. -/
def Obligations.ReadBufReturnsWrittenBytesOnly : Prop :=
  (∀ i : Word, decodeRead (BitVec.ofNat 33 (2 ^ 32 + i.toNat)) = .readBuf i ∧
    assembleLine (.rdbuf i.toNat) = .ok [.read (BitVec.ofNat 33 (2 ^ 32 + i.toNat))]) ∧
  parseLine "RDBUF 5".toList = .ok (some (.rdbuf 5)) ∧
  (Instr.readBuf 0).mnemonic = "READ_BUF" ∧
  ∀ (i : Word) (s : State), Invariant s → cmdReady s = true →
    ∃ v : Word, exec (.readBuf i) s = .next { s with rdData := v } ∧
      (i.toNat < s.byteCount.toNat → ∃ b, Memory.read i.toNat s.buf = some b ∧ v.toNat = b.toNat) ∧
      (s.byteCount.toNat ≤ i.toNat → v = 0) ∧
      (s.cfg.bufBytes ≤ i.toNat → v = 0)

/-- R200: a read taken while BUSY = 1 or rst = 1 completes and changes nothing but the sampled value, which is free. The
counter of free values is the model's (log 5). -/
def Obligations.HazardReadsCompleteWithSomeValue : Prop :=
  ∀ (i : Word) (s : State), (s.inFlight.isSome = true ∨ s.rst = true) →
    (∃ v, exec (.readReg i) s = .next { s with rdData := v, draws := s.draws + 1 }) ∧
    (∃ v, exec (.readBuf i) s = .next { s with rdData := v, draws := s.draws + 1 })

/-- R60: reads change nothing but what the host has sampled (the model's `rdData`, log 4), two reads of an index while idle give
the same value, and over every step only a completing command, or reset (R191), changes the state of R22. -/
def Obligations.ReadsAreIdempotentAndOnlyCommandsChangeState : Prop :=
  (∀ (s : State) (i : Instr), cmdReady s = true → ((∃ x, i = .readReg x) ∨ ∃ x, i = .readBuf x) →
    ∃ v, exec i s = .next { s with rdData := v } ∧
      ∀ w, exec i { s with rdData := w } = .next { s with rdData := v }) ∧
  (∀ (s u : State) (i : Instr), ((∃ x, i = .readReg x) ∨ ∃ x, i = .readBuf x) → exec i s = .next u →
    u = { s with rdData := u.rdData, draws := u.draws }) ∧
  (∀ s t : State, step s = .next t →
    (∃ w u, nextTurn s = .run (decodeCommand w) u) ∨ t.rst = true ∨
      t = { s with inFlight := t.inFlight, rst := t.rst, inputs := t.inputs, rdData := t.rdData, draws := t.draws })

/-! ### Reset and the ports -/

/-- R191: a rising edge with rst = 1 resets every register from any state, abandons the command in flight, and has the
architectural effect of CLEAR. How the rising edge is written as an action is the model's (logs 3, 11). -/
def Obligations.ResetClearsEveryRegister : Prop :=
  ∀ (s : State) (rest : List HostAction), s.inputs = .raiseRst :: rest →
    ∃ u c, step s = .next u ∧ AtReset u ∧ u.inFlight = none ∧ u.stream = [] ∧
      doneOut u = false ∧ errOut u = false ∧
      exec .clear s = .next c ∧ u = { c with inFlight := none, buf := u.buf, inputs := rest, rst := true }

/-- R192: while rst = 1, cmd_ready = 0, no command is accepted and a read gives no specified value; once rst has fallen BUSY = 0,
cmd_ready = 1 and the next command presented runs. That an action which presents a command is used up by an edge with rst = 1 is
the model's choice (log 11), and so are the list of actions and the count of free values (logs 3, 5). -/
def Obligations.NoCommandIsAcceptedDuringReset : Prop :=
  ∀ (s : State) (w : CommandWord) (q : ReadWord) (rest : List HostAction), s.rst = true → PortInv s →
    cmdReady s = false ∧
    (s.inputs = .present (.command w) :: rest ∨ s.inputs = .offer w :: rest →
      ∃ u, step s = .next u ∧ AtReset u ∧ u.inFlight = none ∧ u.rst = true ∧ u.inputs = rest) ∧
    (s.inputs = .present (.read q) :: rest →
      ∃ v, step s = .next { s with rdData := v, draws := s.draws + 1, inputs := rest }) ∧
    (s.inputs = .releaseRst :: .present (.command w) :: rest →
      ∃ u, step s = .next u ∧ AtReset u ∧ busy u = false ∧ cmdReady u = true ∧
        step u = exec (decodeCommand w) { u with inputs := rest })

/-- R46: every register after reset and after CLEAR, for every capacity; CAPACITY and ID are constants. -/
def Obligations.ResetAndClearValues : Prop :=
  (∀ cfg : Config, AtReset (State.resetWith cfg) ∧ busy (State.resetWith cfg) = false ∧
    registerValue 0 (State.resetWith cfg) = 0x42500001 ∧
    registerValue 7 (State.resetWith cfg) = BitVec.ofNat 32 cfg.bufBytes) ∧
  AtReset State.reset ∧ busy State.reset = false ∧
  ∀ s : State, ∃ u, exec .clear s = .next u ∧ AtReset u ∧
    registerValue 0 u = registerValue 0 s ∧ registerValue 7 u = registerValue 7 s

/-- R71, R197: a command offered for one edge is accepted exactly when cmd_ready = 1, which is when rst = 0 and no command is in
flight; offered otherwise it has no effect; a command held while another is in flight waits, its word still presented, until
that one has completed. How the host's actions are written is the model's (log 3). -/
def Obligations.HandshakeAcceptsWhenReady : Prop :=
  ∀ (s : State) (w w₀ : CommandWord) (rest : List HostAction),
    (cmdReady s = true ↔ s.rst = false ∧ s.inFlight = none) ∧
    (s.inputs = .offer w :: rest → cmdReady s = true →
      step s = .next { s with inputs := rest, inFlight := some w }) ∧
    (s.inputs = .offer w :: rest → s.rst = false → s.inFlight = some w₀ →
      step s = .next { s with inputs := rest }) ∧
    (s.inputs = .present (.command w) :: rest → s.rst = false → s.inFlight = some w₀ →
      step s = exec (decodeCommand w₀) { s with inFlight := none })

/-- A step runs the decoded instruction: a command presented while cmd_ready = 1, a read taken, a command in flight that
completes, and the word the opcode table writes. How the host's actions are written down is the model's choice (log 3). -/
def Obligations.StepRunsTheDecodedInstruction : Prop :=
  ∀ (s : State) (w : CommandWord) (q : ReadWord) (rest : List HostAction),
    (s.inputs = .present (.command w) :: rest → cmdReady s = true →
      step s = exec (decode (.command w)) { s with inputs := rest }) ∧
    (s.inputs = .present (.read q) :: rest → step s = exec (decode (.read q)) { s with inputs := rest }) ∧
    (s.inputs = .idle :: rest → s.rst = false → s.inFlight = some w →
      step s = exec (decode (.command w)) { s with inputs := rest, inFlight := none }) ∧
    (s.inputs = [] → s.rst = false → s.inFlight = some w →
      step s = exec (decode (.command w)) { s with inFlight := none }) ∧
    step (s.withFetchWord 64 w.toNat) = exec (decodeCommand w) { s with inFlight := none, rst := false } ∧
    step (s.withFetchWord 40 q.toNat) = exec (decodeRead q) s

/-- R178: when no command is presented and none is in flight the packer holds its state. How the host's actions are written down
is the model's choice (log 3). -/
def Obligations.IdlePackerHoldsItsState : Prop :=
  ∀ (s : State) (rest : List HostAction), cmdReady s = true →
    (s.inputs = [] → step s = .next s) ∧
    (s.inputs = .idle :: rest → step s = .next { s with inputs := rest })

/-- R198, R199: a command accepted now and completed later, with any number of reads taken in between, ends as the command
completed at once: only the sampled value and the count of free values (the model's, logs 4 and 5) differ. -/
def Obligations.LatencyDoesNotChangeTheResult : Prop :=
  ∀ (s : State) (w : CommandWord) (qs : List ReadWord) (rest : List HostAction), cmdReady s = true →
    s.inputs = .offer w :: (qs.map (fun q => .present (.read q)) ++ .idle :: rest) →
    ∃ v, Host.Core.run Sys2Proof.core (qs.length + 2) s =
      exec (decodeCommand w) { s with inputs := rest, rdData := v, draws := s.draws + qs.length }

/-- R170: the status outputs are the flags, and each is cleared only by CLEAR or reset, over every step. -/
def Obligations.StatusOutputsFallOnlyByClearOrReset : Prop :=
  ∀ s t : State, step s = .next t →
    doneOut t = t.done ∧ errOut t = t.err ∧
    (doneOut s = true → doneOut t = false → (∃ u, nextTurn s = .run .clear u) ∨ t.rst = true) ∧
    (errOut s = true → errOut t = false → (∃ u, nextTurn s = .run .clear u) ∨ t.rst = true)

/-! ### Invariants -/

/-- R41 to R45: every step from a state that meets the invariants ends in one that meets them. -/
def Obligations.StepKeepsTheInvariants : Prop :=
  ∀ s t : State, Invariant s → PortInv s → step s = .next t → Invariant t ∧ PortInv t

/-- The state after reset meets the invariants, for every legal capacity. -/
def Obligations.ResetMeetsTheInvariants : Prop :=
  (∀ cfg : Config, cfg.legal → Invariant (State.resetWith cfg) ∧ PortInv (State.resetWith cfg)) ∧
  Invariant State.reset ∧ PortInv State.reset

/-- R52: no step stops where the invariants hold: "A BufWrite with i ≥ BUF_BYTES never happens". -/
def Obligations.NoStepStopsUnderTheInvariants : Prop :=
  ∀ s : State, Invariant s → ∃ t, step s = .next t

/-- R32, R33: CAPACITY and ID are what indices 0x7 and 0x0 read, and no step, reset among them, changes them. -/
def Obligations.CapacityAndIdNeverChange : Prop :=
  ∀ s t : State, step s = .next t →
    t.cfg = s.cfg ∧
    (cmdReady t = true →
      exec (.readReg 0x7) t = .next { t with rdData := BitVec.ofNat 32 s.cfg.bufBytes } ∧
      exec (.readReg 0x0) t = .next { t with rdData := 0x42500001 })

/-- R52: within a stream the buffer is written in increasing index order, each index at most once: what is below BYTE_COUNT
stays, BYTE_COUNT does not fall, and nothing from the new BYTE_COUNT on is written. -/
def Obligations.BufferIsWrittenInOrder : Prop :=
  ∀ (i : Instr) (s u : State), Invariant s → i ≠ .clear → exec i s = .next u →
    s.byteCount.toNat ≤ u.byteCount.toNat ∧ u.byteCount.toNat ≤ s.cfg.bufBytes ∧
    ∀ a, a < s.byteCount.toNat ∨ u.byteCount.toNat ≤ a → Memory.read a u.buf = Memory.read a s.buf

/-- R42, R43: how the hardware holds the stream while it is open and once it is finalized. -/
def Obligations.HardwareHoldsTheStream : Prop :=
  ∀ s : State, Invariant s →
    s.stream.length = s.totalBits.toNat ∧
    (s.done = false → s.stream = bitsOfBytes s.packedBytes ++ s.partialBits ∧
      s.stream.length = 8 * s.byteCount.toNat + s.fill.toNat) ∧
    (s.done = true → s.fill = 0 ∧ s.part = 0 ∧ s.byteCount.toNat = (s.totalBits.toNat + 7) / 8 ∧
      s.padding.toNat = 8 * s.byteCount.toNat - s.totalBits.toNat ∧
      bitsOfBytes s.packedBytes = s.stream ++ List.replicate s.padding.toNat false)

/-! ### The stream -/

/-- R40: the stream grows by the string of each PUSH that completes without error, is emptied by CLEAR, and by nothing else
changed, over all instructions. -/
def Obligations.StreamIsTheConcatenationOfPushes : Prop :=
  ∀ (i : Instr) (s u : State), Invariant s → exec i s = .next u →
    u.stream =
      match i with
      | .clear => []
      | .push len data => if u.err then s.stream else s.stream ++ pushBits len data
      | _ => s.stream

/-- R107: two PUSH commands leave the same state as one PUSH of the concatenation; and after any two lists of successful PUSH
commands that carry the same stream the state is the same, and so it is after FINALIZE. -/
def Obligations.ConcatenationLaw : Prop :=
  (∀ (s : State) (lc ld l : BitVec 6) (c d e : Word), Invariant s → s.err = false → s.done = false →
    1 ≤ lc.toNat → 1 ≤ ld.toNat → l.toNat = lc.toNat + ld.toNat → l.toNat ≤ 32 →
    pushBits l e = pushBits lc c ++ pushBits ld d →
    ceilDiv8 (s.totalBits.toNat + l.toNat) ≤ s.cfg.bufBytes →
    ∃ u, execAll [.push lc c, .push ld d] s = .next u ∧ exec (.push l e) s = .next u ∧ u.err = false) ∧
  (∀ (s : State) (ps qs : List (BitVec 6 × Word)), Invariant s → s.err = false → s.done = false →
    AllLegal ps → AllLegal qs → streamOf ps = streamOf qs →
    ceilDiv8 (s.totalBits.toNat + (streamOf ps).length) ≤ s.cfg.bufBytes →
    (∃ u, execAll (pushes ps) s = .next u ∧ execAll (pushes qs) s = .next u ∧ u.err = false) ∧
    ∃ v, execAll (pushes ps ++ [.finalize]) s = .next v ∧ execAll (pushes qs ++ [.finalize]) s = .next v ∧
      v.done = true ∧ v.err = false)

/-- R2, R112: CLEAR, any PUSH commands that fit, FINALIZE: the buffer and PADDING are `pack` of the stream pushed, from any
state that meets the invariants. -/
def Obligations.PackerRefinesThePackContract : Prop :=
  ∀ (s : State) (ps : List (BitVec 6 × Word)), Invariant s → AllLegal ps →
    (streamOf ps).length ≤ 8 * s.cfg.bufBytes →
    ∃ u, execAll (.clear :: (pushes ps ++ [.finalize])) s = .next u ∧
      u.packedBytes = (pack (streamOf ps)).1 ∧ u.padding.toNat = (pack (streamOf ps)).2 ∧
      u.byteCount.toNat = ceilDiv8 (streamOf ps).length ∧ u.totalBits.toNat = (streamOf ps).length ∧
      u.done = true ∧ u.err = false ∧ u.cfg = s.cfg

/-- R54: stream bit p is bit 7 - (p mod 8) of buffer byte p div 8, in every byte written before FINALIZE and, after it, for every
bit of the stream; and a byte written before FINALIZE is the value of its eight stream bits. -/
def Obligations.StreamBitsAreStoredHighestFirst : Prop :=
  ∀ (s : State) (ps : List (BitVec 6 × Word)), Invariant s → AllLegal ps →
    (streamOf ps).length ≤ 8 * s.cfg.bufBytes →
    ∃ u v, execAll (.clear :: pushes ps) s = .next u ∧ u.byteCount.toNat = (streamOf ps).length / 8 ∧
      (∀ p < 8 * u.byteCount.toNat, ∃ b, Memory.read (p / 8) u.buf = some b ∧
        (streamOf ps)[p]? = some (b.getLsbD (7 - p % 8))) ∧
      (∀ i < u.byteCount.toNat, ∃ b, Memory.read i u.buf = some b ∧
        b.toNat = valOf (((streamOf ps).drop (8 * i)).take 8)) ∧
      exec .finalize u = .next v ∧
      (∀ p < (streamOf ps).length, ∃ b, Memory.read (p / 8) v.buf = some b ∧
        (streamOf ps)[p]? = some (b.getLsbD (7 - p % 8)))

/-- R116: N pushes of at most 8 bits each give at most N bytes. -/
def Obligations.ShortCodesDoNotExpand : Prop :=
  ∀ (s : State) (ps : List (BitVec 6 × Word)), Invariant s → AllLegal ps → (∀ p ∈ ps, p.1.toNat ≤ 8) →
    (streamOf ps).length ≤ 8 * s.cfg.bufBytes →
    ∃ u, execAll (.clear :: (pushes ps ++ [.finalize])) s = .next u ∧ u.err = false ∧ u.byteCount.toNat ≤ ps.length

/-- R169, read with the order of R196 (log 12): from CLEAR, or from a state at reset, NOPs and legal PUSHes in any order that fit
in the buffer, then FINALIZE at most once: no error is recorded. -/
def Obligations.WellFormedUseRecordsNoError : Prop :=
  ∀ (s : State) (cs : List (Option (BitVec 6 × Word))) (last : List Instr), Invariant s →
    (∀ c ∈ cs, ∀ p, c = some p → lenLegal p.1) → last = [] ∨ last = [.finalize] →
    (streamOf (cs.filterMap id)).length ≤ 8 * s.cfg.bufBytes →
    (∃ u, execAll (.clear :: (cs.map pushOrNop ++ last)) s = .next u ∧ u.err = false ∧ u.errCode = 0) ∧
    (AtReset s → ∃ u, execAll (cs.map pushOrNop ++ last) s = .next u ∧ u.err = false ∧ u.errCode = 0)

/-- R31, R53, R115: buffer bytes at indices ≥ BYTE_COUNT cannot be observed: states that differ only there take the same step,
to states that differ only there. -/
def Obligations.StaleBytesCannotBeObserved : Prop :=
  ∀ s t : State, Invariant s → Invariant t → Indistinguishable s t → BothNext Indistinguishable (step s) (step t)

/-- R115: from CLEAR, and from reset, a sequence of commands ends in the same registers and the same readable bytes whatever the
state before it, for packers of one capacity. -/
def Obligations.RunFromClearDependsOnCommandsAlone : Prop :=
  ∀ (s t : State) (is : List Instr), Invariant s → Invariant t → s.cfg = t.cfg → cmdReady s = true → cmdReady t = true →
    BothNext SameObservably (execAll (.clear :: is) s) (execAll (.clear :: is) t) ∧
    (AtReset s → AtReset t → BothNext SameObservably (execAll is s) (execAll is t))

/-! ### The assembler -/

/-- R83: what each line assembles to, and the PUSH lines that are refused. -/
def Obligations.AssemblerEmitsTheSpecsWords : Prop :=
  assembleLine .nop = .ok [encode .nop] ∧
  assembleLine .finalize = .ok [encode .finalize] ∧
  assembleLine .clear = .ok [encode .clear] ∧
  (∀ n v : Nat, 1 ≤ n → n ≤ 32 → v < 2 ^ n →
    assembleLine (.push n v) = .ok [.command (BitVec.ofNat 64 (2 ^ 60 + n * 2 ^ 32 + v))] ∧
    decodeCommand (BitVec.ofNat 64 (2 ^ 60 + n * 2 ^ 32 + v)) = .push (BitVec.ofNat 6 n) (BitVec.ofNat 32 v)) ∧
  (∀ n v : Nat, (n = 0 ∨ 32 < n ∨ 2 ^ n ≤ v) → ∃ e, assembleLine (.push n v) = .error e) ∧
  (∀ w : CommandWord, assembleLine (.cmd w.toNat) = .ok [.command w]) ∧
  (∀ i : Word, assembleLine (.rdreg i.toNat) = .ok [encode (.readReg i)] ∧
    assembleLine (.rdbuf i.toNat) = .ok [encode (.readBuf i)])

/-- R84: PUSHS of a bit string assembles to ceil(|s| / 32) PUSH words that append exactly the string; EMIT8 is PUSH 8 and
RESTART is CLEAR; PUSHS of the empty string is refused. -/
def Obligations.PseudoInstructionsExpandFaithfully : Prop :=
  (∀ (s : State) (bits : List Bool), bits ≠ [] → Invariant s → s.err = false → s.done = false →
    ceilDiv8 (s.totalBits.toNat + bits.length) ≤ s.cfg.bufBytes →
    ∃ rs u, assembleLine (.pushs bits) = .ok rs ∧ rs.length = (bits.length + 31) / 32 ∧
      execAll (rs.map decode) s = .next u ∧ u.err = false ∧ u.stream = s.stream ++ bits) ∧
  (∃ e, assembleLine (.pushs []) = .error e) ∧
  (∀ b : Nat, b ≤ 255 → assembleLine (.emit8 b) = assembleLine (.push 8 b)) ∧
  assembleLine .restart = assembleLine .clear
end

