-- ==== Sys2Proof/Laws/Bits.lean ====
section
/-! SUPPORT. Bit strings: lengths, concatenation, and the bits of the barrel shifter's bytes. -/

namespace Sys2Proof.Machine

@[simp] theorem bitsOf_length (n v : Nat) : (bitsOf n v).length = n := by
  induction n with
  | zero => rfl
  | succ n ih => simp [bitsOf, ih]

/-- The bits of a number depend on its low digits only. -/
theorem bitsOf_congr {n v w : Nat} (h : ∀ i < n, v.testBit i = w.testBit i) : bitsOf n v = bitsOf n w := by
  induction n with
  | zero => rfl
  | succ n ih => rw [bitsOf, bitsOf, h n (by omega), ih fun i hi => h i (by omega)]

theorem bitsOf_mod (n v : Nat) : bitsOf n (v % 2 ^ n) = bitsOf n v :=
  bitsOf_congr fun i hi => by simp [Nat.testBit_mod_two_pow, hi]

/-- bits_n(v) position by position (R14). -/
theorem bitsOf_eq_map (n v : Nat) : bitsOf n v = (List.range n).map fun j => v.testBit (n - 1 - j) := by
  induction n with
  | zero => rfl
  | succ n ih =>
    rw [bitsOf, List.range_succ_eq_map, List.map_cons, List.map_map, ih]
    congr 1
    refine List.map_congr_left fun j _ => ?_
    show v.testBit (n - 1 - j) = v.testBit (n + 1 - 1 - (j + 1))
    congr 1
    omega

/-- The digits above and below position n. -/
theorem bitsOf_add (m n v : Nat) : bitsOf (m + n) v = bitsOf m (v >>> n) ++ bitsOf n v := by
  induction m with
  | zero => simp [bitsOf]
  | succ m ih =>
    rw [Nat.add_right_comm, bitsOf, bitsOf, ih, Nat.testBit_shiftRight, Nat.add_comm n m]
    rfl

/-- `(a << n) | b` is the digits of a, then the n digits of b (R101). -/
theorem bitsOf_shift_or (m n a b : Nat) (h : b < 2 ^ n) : bitsOf (m + n) (a <<< n ||| b) = bitsOf m a ++ bitsOf n b := by
  rw [bitsOf_add]
  congr 1
  · refine bitsOf_congr fun i _ => ?_
    have : b.testBit (n + i) = false :=
      Nat.testBit_lt_two_pow (Nat.lt_of_lt_of_le h (Nat.pow_le_pow_right (by omega) (by omega)))
    simp [Nat.testBit_shiftRight, Nat.testBit_or, Nat.testBit_shiftLeft, this]
  · refine bitsOf_congr fun i hi => ?_
    simp [Nat.testBit_or, Nat.testBit_shiftLeft, hi]

theorem bitsOf_take {k n v : Nat} (h : k ≤ n) : (bitsOf n v).take k = bitsOf k (v >>> (n - k)) := by
  have := bitsOf_add k (n - k) v
  rw [Nat.add_sub_cancel' h] at this
  rw [this, List.take_left' (by simp)]

theorem valOf_foldl (s : List Bool) (a : Nat) :
    s.foldl (fun v b => 2 * v + b.toNat) a = a * 2 ^ s.length + valOf s := by
  induction s generalizing a with
  | nil => simp [valOf]
  | cons b s ih =>
    have hv : valOf (b :: s) = (2 * 0 + b.toNat) * 2 ^ s.length + valOf s := ih _
    rw [List.foldl_cons, ih, hv, List.length_cons, Nat.pow_succ]
    ring

@[simp] theorem valOf_nil : valOf [] = 0 := rfl

theorem valOf_cons (b : Bool) (s : List Bool) : valOf (b :: s) = b.toNat * 2 ^ s.length + valOf s := by
  rw [valOf, List.foldl_cons, valOf_foldl]
  simp

theorem valOf_lt (s : List Bool) : valOf s < 2 ^ s.length := by
  induction s with
  | nil => decide
  | cons b s ih =>
    rw [valOf_cons, List.length_cons, Nat.pow_succ]
    cases b <;> simp <;> omega

/-- val is the inverse of bits_n (R14). -/
theorem bitsOf_valOf (s : List Bool) : bitsOf s.length (valOf s) = s := by
  induction s with
  | nil => rfl
  | cons b s ih =>
    have hlt := valOf_lt s
    rw [List.length_cons, bitsOf, valOf_cons]
    congr 1
    · cases b with
      | false => simpa using Nat.testBit_lt_two_pow hlt
      | true => simp [Nat.testBit_two_pow_add_eq, Nat.testBit_lt_two_pow hlt]
    · rw [← bitsOf_mod, Nat.add_comm, Nat.add_mul_mod_self_right, bitsOf_mod, ih]

theorem valOf_bitsOf (n v : Nat) : valOf (bitsOf n v) = v % 2 ^ n := by
  induction n with
  | zero => simp [bitsOf, Nat.mod_one]
  | succ n ih =>
    rw [bitsOf, valOf_cons, ih, bitsOf_length, Nat.mod_pow_succ, Nat.toNat_testBit]
    ring

theorem bitsOf_injective {n v w : Nat} (hv : v < 2 ^ n) (hw : w < 2 ^ n) (h : bitsOf n v = bitsOf n w) : v = w := by
  have := congrArg valOf h
  rwa [valOf_bitsOf, valOf_bitsOf, Nat.mod_eq_of_lt hv, Nat.mod_eq_of_lt hw] at this

/-! ### Bytes -/

@[simp] theorem bitsOfBytes_nil : bitsOfBytes [] = [] := rfl

@[simp] theorem bitsOfBytes_cons (b : Byte) (bs : List Byte) : bitsOfBytes (b :: bs) = bitsOf 8 b.toNat ++ bitsOfBytes bs :=
  rfl

@[simp] theorem bitsOfBytes_append (bs cs : List Byte) : bitsOfBytes (bs ++ cs) = bitsOfBytes bs ++ bitsOfBytes cs := by
  simp [bitsOfBytes]

@[simp] theorem bitsOfBytes_length (bs : List Byte) : (bitsOfBytes bs).length = 8 * bs.length := by
  induction bs with
  | nil => rfl
  | cons b bs ih => simp [ih]; omega

theorem bitsOf_byte (v : Nat) : bitsOf 8 (BitVec.ofNat 8 v).toNat = bitsOf 8 v := by
  rw [BitVec.toNat_ofNat, bitsOf_mod]

@[simp] theorem wholeBytes_length (w t k : Nat) : (wholeBytes w t k).length = k := by
  simp [wholeBytes]

theorem wholeBytes_getElem (w t k j : Nat) (h : j < (wholeBytes w t k).length) :
    (wholeBytes w t k)[j] = BitVec.ofNat 8 (w >>> (t - 8 - 8 * j)) := by
  simp [wholeBytes, wholeByte]

/-- k whole bytes of t bits are the first 8k of them. -/
theorem bitsOfBytes_wholeBytes {w t k : Nat} (h : 8 * k ≤ t) :
    bitsOfBytes (wholeBytes w t k) = bitsOf (8 * k) (w >>> (t - 8 * k)) := by
  induction k with
  | zero => rfl
  | succ k ih =>
    have hstep : wholeBytes w t (k + 1) = wholeBytes w t k ++ [wholeByte w t k] := by
      simp [wholeBytes, List.range_succ]
    have hsh : w >>> (t - 8 * (k + 1)) >>> 8 = w >>> (t - 8 * k) := by
      rw [← Nat.shiftRight_add]; congr 1; omega
    rw [hstep, bitsOfBytes_append, ih (by omega), bitsOfBytes_cons, bitsOfBytes_nil, List.append_nil, wholeByte,
      bitsOf_byte, show 8 * (k + 1) = 8 * k + 8 by omega, bitsOf_add, ← hsh, show 8 * (k + 1) = 8 * k + 8 by omega,
      show t - 8 - 8 * k = t - (8 * k + 8) by omega]

/-- The whole bytes and the remaining bits of R101 are all t bits. -/
theorem bitsOf_whole_and_rest (w t : Nat) :
    bitsOfBytes (wholeBytes w t (t / 8)) ++ bitsOf (t % 8) w = bitsOf t w := by
  rw [bitsOfBytes_wholeBytes (by omega), show t - 8 * (t / 8) = t % 8 by omega, ← bitsOf_add]
  congr 1
  omega

/-- The new PART holds the last r bits, left-aligned (R101). -/
theorem remainderByte_bits {w r : Nat} (h : r < 8) : (bitsOf 8 (remainderByte w r).toNat).take r = bitsOf r w := by
  rw [bitsOf_take (by omega), remainderByte]
  split
  · subst_vars; rfl
  · refine bitsOf_congr fun i hi => ?_
    have h2 : (8 - r) + i < 8 := by omega
    rw [BitVec.toNat_ofNat, Nat.testBit_shiftRight, Nat.testBit_mod_two_pow, Nat.testBit_shiftLeft]
    simp [Nat.testBit_mod_two_pow, h2, hi]

/-- … and zeros below (R41). -/
theorem remainderByte_aligned {w r : Nat} (h : r < 8) : (remainderByte w r).toNat % 2 ^ (8 - r) = 0 := by
  rw [remainderByte]
  split
  · simp
  · rw [BitVec.toNat_ofNat, Nat.shiftLeft_eq, Nat.mod_mod_of_dvd _ (Nat.pow_dvd_pow 2 (by omega)), Nat.mul_mod_left]

/-- As a number: the last r bits of w times 2^(8-r) (R101). -/
theorem remainderByte_toNat {w r : Nat} (h : r < 8) :
    (remainderByte w r).toNat = if r = 0 then 0 else w % 2 ^ r * 2 ^ (8 - r) := by
  rw [remainderByte]
  split
  · rfl
  · have hlt : w % 2 ^ r < 2 ^ r := Nat.mod_lt _ (Nat.two_pow_pos r)
    have : w % 2 ^ r * 2 ^ (8 - r) < 2 ^ r * 2 ^ (8 - r) := Nat.mul_lt_mul_of_pos_right hlt (Nat.two_pow_pos _)
    rw [← Nat.pow_add, show r + (8 - r) = 8 by omega] at this
    rw [BitVec.toNat_ofNat, Nat.shiftLeft_eq, Nat.mod_eq_of_lt this]

/-- The stream bits in PART are the bits of acc (R42, R101). -/
theorem partialBits_eq (s : State) : s.partialBits = bitsOf s.fill.toNat (partialValue s) := by
  have hf := s.fill.isLt
  rw [State.partialBits, bitsOf_take (by omega), partialValue]
  split
  · simp_all [bitsOf]
  · rfl

theorem pushCode_lt (n : Nat) (data : Word) : pushCode n data < 2 ^ n := Nat.mod_lt _ (Nat.two_pow_pos n)

@[simp] theorem pushBits_length (len : BitVec 6) (data : Word) : (pushBits len data).length = len.toNat := bitsOf_length ..

/-- The shifter's t bits are the partial bits and then the pushed ones (R101). -/
theorem bitsOf_shifterValue (s : State) (len : BitVec 6) (data : Word) :
    bitsOf (s.fill.toNat + len.toNat) (shifterValue s len.toNat (pushCode len.toNat data)) =
      s.partialBits ++ pushBits len data := by
  rw [shifterValue, bitsOf_shift_or _ _ _ _ (pushCode_lt ..), partialBits_eq, pushBits]

end Sys2Proof.Machine
end

