-- ==== Sys2Proof/Laws/Fields.lean ====
section
/-! SUPPORT. The fields of a word as numbers (30_encoding.md R74, R82). -/

namespace Sys2Proof

/-- OP is the word divided by 2^60. -/
theorem opField_toNat (w : CommandWord) : (opField w).toNat = w.toNat / 2^60 := by
  have := w.isLt
  simp [opField, Nat.shiftRight_eq_div_pow]; omega

/-- LEN, from the word as a number. -/
theorem lenField_eq (w : CommandWord) : lenField w = BitVec.ofNat 6 (w.toNat / 2^32 % 2^6) := by
  apply BitVec.eq_of_toNat_eq
  simp [lenField, Nat.shiftRight_eq_div_pow]

/-- DATA, from the word as a number. -/
theorem dataField_eq (w : CommandWord) : dataField w = BitVec.ofNat 32 (w.toNat % 2^32) := by
  apply BitVec.eq_of_toNat_eq
  simp [dataField]

/-- When OP has a given value. -/
theorem opField_eq_iff (w : CommandWord) (x : BitVec 4) : opField w = x ↔ w.toNat / 2^60 = x.toNat := by
  rw [← opField_toNat]; exact ⟨fun h => by rw [h], fun h => BitVec.eq_of_toNat_eq h⟩

/-- A canonical word as a number (R83). -/
theorem commandWord_toNat (op : BitVec 4) (len : BitVec 6) (data : Word) : (commandWord op len data).toNat = op.toNat * 2^60 + len.toNat * 2^32 + data.toNat := by
  have := (BitVec.toNat_append (op ++ (0 : BitVec 22) ++ len) data)
  simp only [commandWord]
  refine this.trans ?_
  rw [BitVec.toNat_append, BitVec.toNat_append]
  have h1 := op.isLt; have h2 := len.isLt; have h3 := data.isLt
  rw [← Nat.shiftLeft_add_eq_or_of_lt h3, ← Nat.shiftLeft_add_eq_or_of_lt h2, ← Nat.shiftLeft_add_eq_or_of_lt (by simp)]
  simp only [Nat.shiftLeft_eq]; simp; omega

/-- A read request as a number. -/
theorem readWord_toNat (b : BitVec 1) (i : Word) : (b ++ i : BitVec 33).toNat = b.toNat * 2^32 + i.toNat := by
  rw [BitVec.toNat_append, ← Nat.shiftLeft_add_eq_or_of_lt i.isLt, Nat.shiftLeft_eq]

end Sys2Proof
end

