-- ==== Sys2Proof/Laws/Memory.lean ====
section
/-! SUPPORT. The buffer's laws: read after write, the canonical form, and the loop of BufWrites. -/

namespace Sys2Proof.Machine

@[simp] theorem Memory.read_nil (i : Nat) : Memory.read i [] = none := rfl

theorem Memory.read_write_same (i : Nat) (b : Byte) (m : Memory) : Memory.read i (Memory.write i b m) = some b := by
  induction m with
  | nil => simp [Memory.write, Memory.read]
  | cons c m ih =>
    simp only [Memory.write]
    split
    · simp [Memory.read]
    · split
      · simp [Memory.read]
      · simp [Memory.read, *]

theorem Memory.read_write_other {i j : Nat} (b : Byte) (m : Memory) (h : j ≠ i) :
    Memory.read j (Memory.write i b m) = Memory.read j m := by
  induction m with
  | nil => simp [Memory.write, Memory.read, h, Memory.unlisted]
  | cons c m ih =>
    simp only [Memory.write]
    split
    · simp [Memory.read, h]
    · split
      · simp_all [Memory.read]
      · simp [Memory.read, ih]

/-- What a written buffer reads as, at every index. -/
theorem Memory.read_write (i j : Nat) (b : Byte) (m : Memory) :
    Memory.read j (Memory.write i b m) = if j = i then some b else Memory.read j m := by
  split
  · subst_vars; exact Memory.read_write_same ..
  · exact Memory.read_write_other _ _ ‹_›

theorem Memory.mem_write {i : Nat} {b : Byte} {m : Memory} {c : Host.Cell} (h : c ∈ Memory.write i b m) :
    c = (i, b) ∨ c ∈ m := by
  induction m with
  | nil => simpa [Memory.write] using h
  | cons d m ih =>
    simp only [Memory.write] at h
    split at h
    · simpa using h
    · split at h
      · rcases List.mem_cons.1 h with h | h <;> simp [h]
      · rcases List.mem_cons.1 h with h | h
        · simp [h]
        · rcases ih h with h | h <;> simp [h]

/-- A write keeps the canonical form. -/
theorem Memory.write_wf {i : Nat} {b : Byte} {m : Memory} (h : Memory.wf m) : Memory.wf (Memory.write i b m) := by
  induction m with
  | nil => simp [Memory.write]
  | cons c m ih =>
    obtain ⟨hc, hm⟩ := List.pairwise_cons.1 h
    simp only [Memory.write]
    split
    · exact List.pairwise_cons.2 ⟨fun d hd => by
        rcases List.mem_cons.1 hd with rfl | hd
        · assumption
        · exact Nat.lt_trans ‹_› (hc d hd), h⟩
    · split
      · subst_vars; exact List.pairwise_cons.2 ⟨hc, hm⟩
      · exact List.pairwise_cons.2 ⟨fun d hd => by
          rcases Memory.mem_write hd with rfl | hd
          · show c.1 < i; omega
          · exact hc d hd, ih hm⟩

theorem Memory.read_eq_none {i : Nat} {m : Memory} (h : ∀ c ∈ m, i < c.1) : Memory.read i m = none := by
  induction m with
  | nil => rfl
  | cons c m ih =>
    have := h c (by simp)
    rw [Memory.read, if_neg (by omega)]
    exact ih fun d hd => h d (by simp [hd])

/-- Buffers in canonical form that read alike are equal. -/
theorem Memory.ext {m m' : Memory} (h : Memory.wf m) (h' : Memory.wf m')
    (hr : ∀ i, Memory.read i m = Memory.read i m') : m = m' := by
  induction m generalizing m' with
  | nil =>
    cases m' with
    | nil => rfl
    | cons d _ => simpa [Memory.read, Memory.unlisted] using hr d.1
  | cons c m ih =>
    obtain ⟨hc, hm⟩ := List.pairwise_cons.1 h
    cases m' with
    | nil => simpa [Memory.read, Memory.unlisted] using hr c.1
    | cons d m' =>
      obtain ⟨hd, hm'⟩ := List.pairwise_cons.1 h'
      have hcd : c = d := by
        rcases Nat.lt_trichotomy c.1 d.1 with hlt | heq | hgt
        · have := hr c.1
          rw [Memory.read, if_pos rfl, Memory.read, if_neg (by omega),
            Memory.read_eq_none fun x hx => Nat.lt_trans hlt (hd x hx)] at this
          cases this
        · have := hr c.1
          rw [Memory.read, if_pos rfl, Memory.read, if_pos heq] at this
          exact Prod.ext heq (Option.some.inj this)
        · have := hr d.1
          rw [Memory.read, if_neg (by omega), Memory.read_eq_none fun x hx => Nat.lt_trans hgt (hc x hx),
            Memory.read, if_pos rfl] at this
          cases this
      subst hcd
      congr 1
      refine ih hm hm' fun i => ?_
      by_cases hi : i = c.1
      · subst hi; rw [Memory.read_eq_none hc, Memory.read_eq_none hd]
      · simpa [Memory.read, hi] using hr i

/-- Everything a loop of BufWrites does, where it has room. -/
theorem bufWriteAll_spec {cap : Nat} {bs : List Byte} {i : Nat} {m : Memory} (h : i + bs.length ≤ cap) :
    ∃ m', bufWriteAll cap i bs m = some m' ∧
      (∀ j (hj : j < bs.length), Memory.read (i + j) m' = some bs[j]) ∧
      (∀ a, a < i ∨ i + bs.length ≤ a → Memory.read a m' = Memory.read a m) ∧
      (Memory.wf m → Memory.wf m') ∧
      ((∀ c ∈ m, c.1 < cap) → ∀ c ∈ m', c.1 < cap) := by
  induction bs generalizing i m with
  | nil => exact ⟨m, rfl, by simp, by simp, id, id⟩
  | cons b bs ih =>
    rw [List.length_cons] at h
    have hi : i < cap := by omega
    obtain ⟨m', he, hin, hout, hwf, hr⟩ := ih (i := i + 1) (m := Memory.write i b m) (by omega)
    refine ⟨m', by simp [bufWriteAll, bufWrite, hi, he], ?_, ?_, fun hm => hwf (Memory.write_wf hm), fun hm => hr ?_⟩
    · intro j hj
      cases j with
      | zero => rw [Nat.add_zero, hout i (by omega), Memory.read_write_same]; rfl
      | succ j =>
        have := hin j (by simpa using hj)
        rw [← Nat.add_assoc, Nat.add_right_comm]
        simpa using this
    · intro a ha
      rw [List.length_cons] at ha
      rw [hout a (by omega), Memory.read_write_other _ _ (by omega)]
    · intro c hc
      rcases Memory.mem_write hc with rfl | hc
      · exact hi
      · exact hm c hc

/-- A loop of BufWrites that stops had no room. -/
theorem bufWriteAll_eq_none {cap : Nat} {bs : List Byte} {i : Nat} {m : Memory} (h : bufWriteAll cap i bs m = none) :
    cap < i + bs.length := by
  by_contra hc
  obtain ⟨m', he, -⟩ := bufWriteAll_spec (bs := bs) (m := m) (i := i) (cap := cap) (by omega)
  rw [he] at h
  cases h

/-- What a loop of BufWrites needs, if it ends. -/
theorem bufWriteAll_eq_some {cap : Nat} {bs : List Byte} {i : Nat} {m m' : Memory}
    (h : bufWriteAll cap i bs m = some m') : bs = [] ∨ i + bs.length ≤ cap := by
  induction bs generalizing i m with
  | nil => exact .inl rfl
  | cons b bs ih =>
    right
    simp only [bufWriteAll, bufWrite] at h
    split at h
    · rename_i heq
      split at heq
      · rcases ih h with rfl | h <;> simp <;> omega
      · cases heq
    · cases h

end Sys2Proof.Machine
end

