-- ==== Sys2Proof/Laws/State.lean ====
section
/-! SUPPORT. For each named update of the state, what it leaves in each field. -/

namespace Sys2Proof.Machine

/-! ### recordError -/

@[simp] theorem recordError_cfg (c : ErrorCode) (s : State) : (recordError c s).cfg = s.cfg := rfl
@[simp] theorem recordError_fill (c : ErrorCode) (s : State) : (recordError c s).fill = s.fill := rfl
@[simp] theorem recordError_part (c : ErrorCode) (s : State) : (recordError c s).part = s.part := rfl
@[simp] theorem recordError_byteCount (c : ErrorCode) (s : State) : (recordError c s).byteCount = s.byteCount := rfl
@[simp] theorem recordError_totalBits (c : ErrorCode) (s : State) : (recordError c s).totalBits = s.totalBits := rfl
@[simp] theorem recordError_padding (c : ErrorCode) (s : State) : (recordError c s).padding = s.padding := rfl
@[simp] theorem recordError_done (c : ErrorCode) (s : State) : (recordError c s).done = s.done := rfl
@[simp] theorem recordError_err (c : ErrorCode) (s : State) : (recordError c s).err = true := rfl
@[simp] theorem recordError_errCode (c : ErrorCode) (s : State) : (recordError c s).errCode = errorBits c := rfl
@[simp] theorem recordError_buf (c : ErrorCode) (s : State) : (recordError c s).buf = s.buf := rfl
@[simp] theorem recordError_inFlight (c : ErrorCode) (s : State) : (recordError c s).inFlight = s.inFlight := rfl
@[simp] theorem recordError_rst (c : ErrorCode) (s : State) : (recordError c s).rst = s.rst := rfl
@[simp] theorem recordError_inputs (c : ErrorCode) (s : State) : (recordError c s).inputs = s.inputs := rfl
@[simp] theorem recordError_rdData (c : ErrorCode) (s : State) : (recordError c s).rdData = s.rdData := rfl
@[simp] theorem recordError_draws (c : ErrorCode) (s : State) : (recordError c s).draws = s.draws := rfl

/-! ### clearStream -/

@[simp] theorem clearStream_cfg (s : State) : (clearStream s).cfg = s.cfg := rfl
@[simp] theorem clearStream_fill (s : State) : (clearStream s).fill = 0 := rfl
@[simp] theorem clearStream_part (s : State) : (clearStream s).part = 0 := rfl
@[simp] theorem clearStream_byteCount (s : State) : (clearStream s).byteCount = 0 := rfl
@[simp] theorem clearStream_totalBits (s : State) : (clearStream s).totalBits = 0 := rfl
@[simp] theorem clearStream_padding (s : State) : (clearStream s).padding = 0 := rfl
@[simp] theorem clearStream_done (s : State) : (clearStream s).done = false := rfl
@[simp] theorem clearStream_err (s : State) : (clearStream s).err = false := rfl
@[simp] theorem clearStream_errCode (s : State) : (clearStream s).errCode = 0 := rfl
@[simp] theorem clearStream_buf (s : State) : (clearStream s).buf = s.buf := rfl
@[simp] theorem clearStream_inFlight (s : State) : (clearStream s).inFlight = s.inFlight := rfl
@[simp] theorem clearStream_rst (s : State) : (clearStream s).rst = s.rst := rfl
@[simp] theorem clearStream_inputs (s : State) : (clearStream s).inputs = s.inputs := rfl
@[simp] theorem clearStream_rdData (s : State) : (clearStream s).rdData = s.rdData := rfl
@[simp] theorem clearStream_draws (s : State) : (clearStream s).draws = s.draws := rfl

/-! ### advance -/

@[simp] theorem advance_cfg (k r n : Nat) (rest : Byte) (m : Memory) (s : State) : (advance k r n rest m s).cfg = s.cfg := rfl
@[simp] theorem advance_fill (k r n : Nat) (rest : Byte) (m : Memory) (s : State) : (advance k r n rest m s).fill = BitVec.ofNat 3 r := rfl
@[simp] theorem advance_part (k r n : Nat) (rest : Byte) (m : Memory) (s : State) : (advance k r n rest m s).part = rest := rfl
@[simp] theorem advance_byteCount (k r n : Nat) (rest : Byte) (m : Memory) (s : State) : (advance k r n rest m s).byteCount = BitVec.ofNat 32 (s.byteCount.toNat + k) := rfl
@[simp] theorem advance_totalBits (k r n : Nat) (rest : Byte) (m : Memory) (s : State) : (advance k r n rest m s).totalBits = BitVec.ofNat 32 (s.totalBits.toNat + n) := rfl
@[simp] theorem advance_padding (k r n : Nat) (rest : Byte) (m : Memory) (s : State) : (advance k r n rest m s).padding = s.padding := rfl
@[simp] theorem advance_done (k r n : Nat) (rest : Byte) (m : Memory) (s : State) : (advance k r n rest m s).done = s.done := rfl
@[simp] theorem advance_err (k r n : Nat) (rest : Byte) (m : Memory) (s : State) : (advance k r n rest m s).err = s.err := rfl
@[simp] theorem advance_errCode (k r n : Nat) (rest : Byte) (m : Memory) (s : State) : (advance k r n rest m s).errCode = s.errCode := rfl
@[simp] theorem advance_buf (k r n : Nat) (rest : Byte) (m : Memory) (s : State) : (advance k r n rest m s).buf = m := rfl
@[simp] theorem advance_inFlight (k r n : Nat) (rest : Byte) (m : Memory) (s : State) : (advance k r n rest m s).inFlight = s.inFlight := rfl
@[simp] theorem advance_rst (k r n : Nat) (rest : Byte) (m : Memory) (s : State) : (advance k r n rest m s).rst = s.rst := rfl
@[simp] theorem advance_inputs (k r n : Nat) (rest : Byte) (m : Memory) (s : State) : (advance k r n rest m s).inputs = s.inputs := rfl
@[simp] theorem advance_rdData (k r n : Nat) (rest : Byte) (m : Memory) (s : State) : (advance k r n rest m s).rdData = s.rdData := rfl
@[simp] theorem advance_draws (k r n : Nat) (rest : Byte) (m : Memory) (s : State) : (advance k r n rest m s).draws = s.draws := rfl

/-! ### closeStream -/

@[simp] theorem closeStream_cfg (pad : BitVec 3) (count : Word) (m : Memory) (s : State) : (closeStream pad count m s).cfg = s.cfg := rfl
@[simp] theorem closeStream_fill (pad : BitVec 3) (count : Word) (m : Memory) (s : State) : (closeStream pad count m s).fill = 0 := rfl
@[simp] theorem closeStream_part (pad : BitVec 3) (count : Word) (m : Memory) (s : State) : (closeStream pad count m s).part = 0 := rfl
@[simp] theorem closeStream_byteCount (pad : BitVec 3) (count : Word) (m : Memory) (s : State) : (closeStream pad count m s).byteCount = count := rfl
@[simp] theorem closeStream_totalBits (pad : BitVec 3) (count : Word) (m : Memory) (s : State) : (closeStream pad count m s).totalBits = s.totalBits := rfl
@[simp] theorem closeStream_padding (pad : BitVec 3) (count : Word) (m : Memory) (s : State) : (closeStream pad count m s).padding = pad := rfl
@[simp] theorem closeStream_done (pad : BitVec 3) (count : Word) (m : Memory) (s : State) : (closeStream pad count m s).done = true := rfl
@[simp] theorem closeStream_err (pad : BitVec 3) (count : Word) (m : Memory) (s : State) : (closeStream pad count m s).err = s.err := rfl
@[simp] theorem closeStream_errCode (pad : BitVec 3) (count : Word) (m : Memory) (s : State) : (closeStream pad count m s).errCode = s.errCode := rfl
@[simp] theorem closeStream_buf (pad : BitVec 3) (count : Word) (m : Memory) (s : State) : (closeStream pad count m s).buf = m := rfl
@[simp] theorem closeStream_inFlight (pad : BitVec 3) (count : Word) (m : Memory) (s : State) : (closeStream pad count m s).inFlight = s.inFlight := rfl
@[simp] theorem closeStream_rst (pad : BitVec 3) (count : Word) (m : Memory) (s : State) : (closeStream pad count m s).rst = s.rst := rfl
@[simp] theorem closeStream_inputs (pad : BitVec 3) (count : Word) (m : Memory) (s : State) : (closeStream pad count m s).inputs = s.inputs := rfl
@[simp] theorem closeStream_rdData (pad : BitVec 3) (count : Word) (m : Memory) (s : State) : (closeStream pad count m s).rdData = s.rdData := rfl
@[simp] theorem closeStream_draws (pad : BitVec 3) (count : Word) (m : Memory) (s : State) : (closeStream pad count m s).draws = s.draws := rfl

/-! ### resetPacker -/

@[simp] theorem resetPacker_cfg (s : State) : (resetPacker s).cfg = s.cfg := rfl
@[simp] theorem resetPacker_fill (s : State) : (resetPacker s).fill = 0 := rfl
@[simp] theorem resetPacker_part (s : State) : (resetPacker s).part = 0 := rfl
@[simp] theorem resetPacker_byteCount (s : State) : (resetPacker s).byteCount = 0 := rfl
@[simp] theorem resetPacker_totalBits (s : State) : (resetPacker s).totalBits = 0 := rfl
@[simp] theorem resetPacker_padding (s : State) : (resetPacker s).padding = 0 := rfl
@[simp] theorem resetPacker_done (s : State) : (resetPacker s).done = false := rfl
@[simp] theorem resetPacker_err (s : State) : (resetPacker s).err = false := rfl
@[simp] theorem resetPacker_errCode (s : State) : (resetPacker s).errCode = 0 := rfl
@[simp] theorem resetPacker_buf (s : State) : (resetPacker s).buf = [] := rfl
@[simp] theorem resetPacker_inFlight (s : State) : (resetPacker s).inFlight = none := rfl
@[simp] theorem resetPacker_rst (s : State) : (resetPacker s).rst = s.rst := rfl
@[simp] theorem resetPacker_inputs (s : State) : (resetPacker s).inputs = s.inputs := rfl
@[simp] theorem resetPacker_rdData (s : State) : (resetPacker s).rdData = s.rdData := rfl
@[simp] theorem resetPacker_draws (s : State) : (resetPacker s).draws = s.draws := rfl

/-! ### sampleRead -/

@[simp] theorem sampleRead_cfg (v : Word) (s : State) : (sampleRead v s).cfg = s.cfg := by
  unfold sampleRead; split <;> rfl
@[simp] theorem sampleRead_fill (v : Word) (s : State) : (sampleRead v s).fill = s.fill := by
  unfold sampleRead; split <;> rfl
@[simp] theorem sampleRead_part (v : Word) (s : State) : (sampleRead v s).part = s.part := by
  unfold sampleRead; split <;> rfl
@[simp] theorem sampleRead_byteCount (v : Word) (s : State) : (sampleRead v s).byteCount = s.byteCount := by
  unfold sampleRead; split <;> rfl
@[simp] theorem sampleRead_totalBits (v : Word) (s : State) : (sampleRead v s).totalBits = s.totalBits := by
  unfold sampleRead; split <;> rfl
@[simp] theorem sampleRead_padding (v : Word) (s : State) : (sampleRead v s).padding = s.padding := by
  unfold sampleRead; split <;> rfl
@[simp] theorem sampleRead_done (v : Word) (s : State) : (sampleRead v s).done = s.done := by
  unfold sampleRead; split <;> rfl
@[simp] theorem sampleRead_err (v : Word) (s : State) : (sampleRead v s).err = s.err := by
  unfold sampleRead; split <;> rfl
@[simp] theorem sampleRead_errCode (v : Word) (s : State) : (sampleRead v s).errCode = s.errCode := by
  unfold sampleRead; split <;> rfl
@[simp] theorem sampleRead_buf (v : Word) (s : State) : (sampleRead v s).buf = s.buf := by
  unfold sampleRead; split <;> rfl
@[simp] theorem sampleRead_inFlight (v : Word) (s : State) : (sampleRead v s).inFlight = s.inFlight := by
  unfold sampleRead; split <;> rfl
@[simp] theorem sampleRead_rst (v : Word) (s : State) : (sampleRead v s).rst = s.rst := by
  unfold sampleRead; split <;> rfl
@[simp] theorem sampleRead_inputs (v : Word) (s : State) : (sampleRead v s).inputs = s.inputs := by
  unfold sampleRead; split <;> rfl

theorem sampleRead_ready (v : Word) (s : State) (h : cmdReady s = true) : sampleRead v s = { s with rdData := v } := by
  simp [sampleRead, h]

theorem sampleRead_hazard (v : Word) (s : State) (h : cmdReady s = false) :
    sampleRead v s = { s with rdData := Config.hazardRead s.draws, draws := s.draws + 1 } := by
  simp [sampleRead, h]

/-! ### Status -/

theorem cmdReady_iff (s : State) : cmdReady s = true ↔ s.rst = false ∧ s.inFlight = none := by
  simp [cmdReady, busy]

end Sys2Proof.Machine
end

