-- ==== Sys2Proof/Laws/Ops.lean ====
section
/-! SUPPORT. What each shared operation can do, said once. -/

namespace Sys2Proof.Machine

/-- Recording an error always completes (R163). -/
theorem raiseError_eq (c : ErrorCode) (s : State) : raiseError c s = .next (recordError c s) := rfl

theorem errorBits_ne_zero (c : ErrorCode) : errorBits c ≠ 0 := by cases c <;> decide

theorem errorBits_le (c : ErrorCode) : (errorBits c).toNat ≤ 4 := by cases c <;> decide

theorem unlessErr_of_err {s : State} {body : Result} (h : s.err = true) : unlessErr s body = .next s := by
  simp [unlessErr, h]

theorem unlessErr_of_no_err {s : State} {body : Result} (h : s.err = false) : unlessErr s body = body := by
  simp [unlessErr, h]

/-- Appending n bits where there is room: the buffer it leaves and the registers (R101). -/
theorem appendBits_room {n code : Nat} {s : State} (h : s.byteCount.toNat + (s.fill.toNat + n) / 8 ≤ s.cfg.bufBytes) :
    ∃ m, bufWriteAll s.cfg.bufBytes s.byteCount.toNat
        (wholeBytes (shifterValue s n code) (s.fill.toNat + n) ((s.fill.toNat + n) / 8)) s.buf = some m ∧
      appendBits n code s = .next (advance ((s.fill.toNat + n) / 8) ((s.fill.toNat + n) % 8) n
        (remainderByte (shifterValue s n code) ((s.fill.toNat + n) % 8)) m s) := by
  obtain ⟨m, hm, -⟩ := bufWriteAll_spec (bs := wholeBytes (shifterValue s n code) (s.fill.toNat + n) ((s.fill.toNat + n) / 8))
    (m := s.buf) (i := s.byteCount.toNat) (cap := s.cfg.bufBytes) (by rw [wholeBytes_length]; exact h)
  exact ⟨m, hm, by simp [appendBits, hm]⟩

/-- Everything appending bits can end in. -/
theorem appendBits_cases {n code : Nat} {s : State} :
    (∃ m, bufWriteAll s.cfg.bufBytes s.byteCount.toNat
        (wholeBytes (shifterValue s n code) (s.fill.toNat + n) ((s.fill.toNat + n) / 8)) s.buf = some m ∧
      appendBits n code s = .next (advance ((s.fill.toNat + n) / 8) ((s.fill.toNat + n) % 8) n
        (remainderByte (shifterValue s n code) ((s.fill.toNat + n) % 8)) m s)) ∨
    (appendBits n code s = .fault .bufferIndex ∧ s.cfg.bufBytes < s.byteCount.toNat + (s.fill.toNat + n) / 8) := by
  simp only [appendBits]
  split
  · exact .inl ⟨_, ‹_›, rfl⟩
  · exact .inr ⟨rfl, by rw [← wholeBytes_length (shifterValue s n code) (s.fill.toNat + n) ((s.fill.toNat + n) / 8)]; exact bufWriteAll_eq_none ‹_›⟩

/-- Everything the flush of FINALIZE can end in (R106). -/
theorem flush_cases (s : State) :
    (s.fill = 0 ∧ flush s = .next (closeStream 0 s.byteCount s.buf s)) ∨
    (s.fill ≠ 0 ∧ s.byteCount.toNat < s.cfg.bufBytes ∧
      flush s = .next (closeStream (BitVec.ofNat 3 (8 - s.fill.toNat)) (BitVec.ofNat 32 (s.byteCount.toNat + 1))
        (Memory.write s.byteCount.toNat s.part s.buf) s)) ∨
    (s.fill ≠ 0 ∧ s.cfg.bufBytes ≤ s.byteCount.toNat ∧ flush s = .fault .bufferIndex) := by
  by_cases h : s.fill = 0
  · exact .inl ⟨h, by rw [flush, if_pos h]⟩
  · by_cases hc : s.byteCount.toNat < s.cfg.bufBytes
    · exact .inr (.inl ⟨h, hc, by rw [flush, if_neg h]; simp [bufWrite, hc]⟩)
    · exact .inr (.inr ⟨h, by omega, by rw [flush, if_neg h]; simp [bufWrite, hc]⟩)

/-- Everything PUSH can end in (R101, R103). -/
theorem execPush_cases (len : BitVec 6) (data : Word) (s : State) :
    (s.err = true ∧ execPush len data s = .next s) ∨
    (s.err = false ∧ s.done = true ∧ execPush len data s = .next (recordError .done s)) ∨
    (s.err = false ∧ s.done = false ∧ ¬ lenLegal len ∧ execPush len data s = .next (recordError .len s)) ∨
    (s.err = false ∧ s.done = false ∧ lenLegal len ∧ s.cfg.bufBytes < ceilDiv8 (s.totalBits.toNat + len.toNat) ∧
      execPush len data s = .next (recordError .ovf s)) ∨
    (s.err = false ∧ s.done = false ∧ lenLegal len ∧ ceilDiv8 (s.totalBits.toNat + len.toNat) ≤ s.cfg.bufBytes ∧
      execPush len data s = appendBits len.toNat (pushCode len.toNat data) s) := by
  cases he : s.err with
  | true => exact .inl ⟨rfl, unlessErr_of_err he⟩
  | false =>
    right
    rw [execPush, unlessErr_of_no_err he]
    cases hd : s.done with
    | true => exact .inl ⟨rfl, rfl, by simp [raiseError]⟩
    | false =>
      right
      by_cases hl : lenLegal len
      · right
        by_cases hc : s.cfg.bufBytes < ceilDiv8 (s.totalBits.toNat + len.toNat)
        · exact .inl ⟨rfl, rfl, hl, hc, by simp [hl, hc, raiseError]⟩
        · exact .inr ⟨rfl, rfl, hl, by omega, by simp [hl, hc]⟩
      · exact .inl ⟨rfl, rfl, hl, by simp [hl, raiseError]⟩

/-- Everything FINALIZE can end in (R106, R110). -/
theorem execFinalize_cases (s : State) :
    (s.err = true ∧ execFinalize s = .next s) ∨
    (s.err = false ∧ s.done = true ∧ execFinalize s = .next (recordError .done s)) ∨
    (s.err = false ∧ s.done = false ∧ execFinalize s = flush s) := by
  cases he : s.err with
  | true => exact .inl ⟨rfl, unlessErr_of_err he⟩
  | false =>
    right
    rw [execFinalize, unlessErr_of_no_err he]
    cases hd : s.done with
    | true => exact .inl ⟨rfl, rfl, by simp [raiseError]⟩
    | false => exact .inr ⟨rfl, rfl, by simp⟩

end Sys2Proof.Machine
end

