-- ==== Sys2Proof/Laws/Step.lean ====
section
/-! SUPPORT. What a step can do, said once, and the equations of a step for each action of the host. -/

namespace Sys2Proof.Machine

@[simp] theorem exec_nop (s : State) : exec .nop s = execNop s := rfl
@[simp] theorem exec_push (len : BitVec 6) (data : Word) (s : State) : exec (.push len data) s = execPush len data s := rfl
@[simp] theorem exec_finalize (s : State) : exec .finalize s = execFinalize s := rfl
@[simp] theorem exec_clear (s : State) : exec .clear s = execClear s := rfl
@[simp] theorem exec_reserved47 (op : BitVec 4) (s : State) : exec (.reserved47 op) s = execReserved47 op s := rfl
@[simp] theorem exec_reserved8F (op : BitVec 4) (s : State) : exec (.reserved8F op) s = execReserved8F op s := rfl
@[simp] theorem exec_readReg (i : Word) (s : State) : exec (.readReg i) s = execReadReg i s := rfl
@[simp] theorem exec_readBuf (i : Word) (s : State) : exec (.readBuf i) s = execReadBuf i s := rfl

theorem step_run {s s' : State} {i : Instr} (h : nextTurn s = .run i s') : step s = exec i s' := by
  rw [step, h]

theorem step_settle {s s' : State} (h : nextTurn s = .settle s') : step s = .next s' := by
  rw [step, h]

/-- A step runs one instruction or settles. -/
theorem step_cases (s : State) :
    (∃ i s', nextTurn s = .run i s' ∧ step s = exec i s') ∨ (∃ s', nextTurn s = .settle s' ∧ step s = .next s') := by
  cases h : nextTurn s with
  | run i s' => exact .inl ⟨i, s', rfl, step_run h⟩
  | settle s' => exact .inr ⟨s', rfl, step_settle h⟩

/-- A turn that runs an instruction changes only the host's actions and the command in flight; a command runs with rst = 0 and
leaves none in flight. -/
theorem nextTurn_run {s s' : State} {i : Instr} (h : nextTurn s = .run i s') :
    s' = { s with inputs := s'.inputs, inFlight := s'.inFlight } ∧
      ((∃ q, i = decodeRead q ∧ s'.inFlight = s.inFlight) ∨
        (s.rst = false ∧ s'.inFlight = none ∧ ∃ w, i = decodeCommand w)) := by
  revert h
  simp only [nextTurn]
  split
  · simp only [idleTurn]
    split
    · simp
    · split
      · rintro ⟨⟩; exact ⟨rfl, .inr ⟨by simpa using ‹¬ s.rst = true›, rfl, _, rfl⟩⟩
      · simp
  · simp only [commandTurn]
    split
    · simp
    · split
      · rintro ⟨⟩; exact ⟨rfl, .inr ⟨by simpa using ‹¬ s.rst = true›, rfl, _, rfl⟩⟩
      · rintro ⟨⟩; exact ⟨rfl, .inr ⟨by simpa using ‹¬ s.rst = true›, ‹_›, _, rfl⟩⟩
  · rintro ⟨⟩; exact ⟨rfl, .inl ⟨_, rfl, rfl⟩⟩
  · simp only [offerTurn]
    split
    · simp
    · split <;> simp
  · simp only [idleTurn]
    split
    · simp
    · split
      · rintro ⟨⟩; exact ⟨rfl, .inr ⟨by simpa using ‹¬ s.rst = true›, rfl, _, rfl⟩⟩
      · simp
  · simp
  · simp

/-- A turn that settles resets the packer under rst = 1, or changes only the host's actions, the command in flight and the
pin. -/
theorem nextTurn_settle {s s' : State} (h : nextTurn s = .settle s') :
    (s'.rst = true ∧ s' = { resetPacker s with inputs := s'.inputs, rst := true }) ∨
      (s' = { s with inputs := s'.inputs, inFlight := s'.inFlight, rst := s'.rst } ∧
        (s'.rst = true → s.rst = true ∧ s'.inFlight = s.inFlight)) := by
  revert h
  simp only [nextTurn]
  split
  · simp only [idleTurn]
    split
    · rintro ⟨⟩; left; simp_all [resetPacker, clearStream]
    · split
      · simp
      · rintro ⟨⟩; exact .inr ⟨rfl, fun h => ⟨h, rfl⟩⟩
  · simp only [commandTurn]
    split
    · rintro ⟨⟩; left; simp_all [resetPacker, clearStream]
    · split <;> simp
  · simp
  · simp only [offerTurn]
    split
    · rintro ⟨⟩; left; simp_all [resetPacker, clearStream]
    · split
      · rintro ⟨⟩; exact .inr ⟨rfl, fun h => ⟨h, rfl⟩⟩
      · rintro ⟨⟩; exact .inr ⟨rfl, fun h => by simp_all⟩
  · simp only [idleTurn]
    split
    · rintro ⟨⟩; left; simp_all [resetPacker, clearStream]
    · split
      · simp
      · rintro ⟨⟩; exact .inr ⟨rfl, fun h => ⟨h, rfl⟩⟩
  · rintro ⟨⟩; left; simp [resetPacker, clearStream]
  · rintro ⟨⟩; exact .inr ⟨rfl, fun h => by simp at h⟩

end Sys2Proof.Machine
end

