-- ==== Sys2Proof/Laws/Invariant.lean ====
section
/-! SUPPORT. The invariant over each shared operation, and what an instruction can do, said once. -/

namespace Sys2Proof.Machine

/-- TOTAL_BITS never comes near its width (R44, R8). -/
theorem Invariant.count_bound {s} (h : Invariant s) : s.totalBits.toNat ≤ 2^31 := by
  have := h.capacity; have := h.config_legal; simp only [ceilDiv8] at *; omega

/-- The packed bytes hold at most seven bits beyond the stream (R42, R43). -/
theorem Invariant.count_le {s} (h : Invariant s) : 8 * s.byteCount.toNat ≤ s.totalBits.toNat + 7 := by
  have := s.padding.isLt
  cases hd : s.done
  · have := h.open_count hd; omega
  · have := h.closed_count hd; omega

/-- BYTE_COUNT never exceeds the capacity (R44). -/
theorem Invariant.byteCount_le {s} (h : Invariant s) : s.byteCount.toNat ≤ s.cfg.bufBytes := by
  have := h.count_le; have := h.capacity; simp only [ceilDiv8] at *; omega

/-- Recording an error keeps the invariant (R163). -/
theorem Invariant.recordError {s} (h : Invariant s) (c) : Invariant (recordError c s) where
  config_legal := h.config_legal
  part_aligned := h.part_aligned
  open_count := h.open_count
  open_padding := h.open_padding
  closed_fill := h.closed_fill
  closed_count := h.closed_count
  closed_zero := h.closed_zero
  capacity := h.capacity
  err_iff := by simp; exact errorBits_ne_zero c
  err_range := errorBits_le c
  buf_wf := h.buf_wf
  buf_written := h.buf_written
  buf_range := h.buf_range

/-- A PUSH that passes the capacity check has room for its whole bytes (R102). -/
theorem Invariant.room {s} (h : Invariant s) (hd : s.done = false) {n} (hc : ceilDiv8 (s.totalBits.toNat + n) ≤ s.cfg.bufBytes) :
    s.byteCount.toNat + (s.fill.toNat + n) / 8 ≤ s.cfg.bufBytes := by
  have := h.open_count hd; simp only [ceilDiv8] at hc; omega

/-- Everything the barrel shifter does where the capacity check passes (R101). -/
theorem Invariant.append {s} (h : Invariant s) (hd : s.done = false) {n code} (hc : ceilDiv8 (s.totalBits.toNat + n) ≤ s.cfg.bufBytes) :
    ∃ u, appendBits n code s = .next u ∧ Invariant u ∧
      u = { s with fill := u.fill, part := u.part, byteCount := u.byteCount, totalBits := u.totalBits, buf := u.buf } ∧
      u.fill.toNat = (s.fill.toNat + n) % 8 ∧
      u.part = remainderByte (shifterValue s n code) ((s.fill.toNat + n) % 8) ∧
      u.byteCount.toNat = s.byteCount.toNat + (s.fill.toNat + n) / 8 ∧
      u.totalBits.toNat = s.totalBits.toNat + n ∧
      (∀ j < (s.fill.toNat + n) / 8, Memory.read (s.byteCount.toNat + j) u.buf =
        some (wholeByte (shifterValue s n code) (s.fill.toNat + n) j)) ∧
      (∀ a, a < s.byteCount.toNat ∨ s.byteCount.toNat + (s.fill.toNat + n) / 8 ≤ a →
        Memory.read a u.buf = Memory.read a s.buf) := by
  have hroom := h.room hd hc
  obtain ⟨m, hm, he⟩ := appendBits_room (code := code) hroom
  obtain ⟨m', hm', hin, hout, hwf, hr⟩ := bufWriteAll_spec (m := s.buf)
    (bs := wholeBytes (shifterValue s n code) (s.fill.toNat + n) ((s.fill.toNat + n) / 8)) (i := s.byteCount.toNat)
    (cap := s.cfg.bufBytes) (by rw [wholeBytes_length]; exact hroom)
  rw [hm] at hm'; cases hm'
  rw [wholeBytes_length] at hout
  have hcnt := h.open_count hd
  have hcap := h.config_legal
  have hin' : ∀ j < (s.fill.toNat + n) / 8, Memory.read (s.byteCount.toNat + j) m =
      some (wholeByte (shifterValue s n code) (s.fill.toNat + n) j) := fun j hj => by
    rw [hin j (by simpa using hj)]; simp [wholeBytes]
  have hb : ceilDiv8 (s.totalBits.toNat + n) ≤ 2^28 := by omega
  have hf : ((BitVec.ofNat 3 ((s.fill.toNat + n) % 8)).toNat) = (s.fill.toNat + n) % 8 := by
    rw [BitVec.toNat_ofNat]; omega
  have hB : (BitVec.ofNat 32 (s.byteCount.toNat + (s.fill.toNat + n)/8)).toNat = s.byteCount.toNat + (s.fill.toNat + n)/8 := by
    rw [BitVec.toNat_ofNat]; simp only [ceilDiv8] at hb; omega
  have hT : (BitVec.ofNat 32 (s.totalBits.toNat + n)).toNat = s.totalBits.toNat + n := by
    rw [BitVec.toNat_ofNat]; simp only [ceilDiv8] at hb; omega
  refine ⟨_, he, ?_, rfl, hf, rfl, hB, hT, hin', hout⟩
  constructor
  · exact hcap
  · simp only [advance_part, advance_fill, hf]; exact remainderByte_aligned (by omega)
  · simp only [advance_totalBits, advance_byteCount, advance_fill, hf, hB, hT]; intro _; omega
  · exact fun _ => h.open_padding hd
  · simp [hd]
  · simp [hd]
  · simp [hd]
  · simp only [advance_totalBits, hT]; exact hc
  · exact h.err_iff
  · exact h.err_range
  · exact hwf h.buf_wf
  · simp only [advance_byteCount, hB, advance_buf]
    intro i hi
    by_cases hlt : i < s.byteCount.toNat
    · rw [hout i (.inl hlt)]; exact h.buf_written i hlt
    · have := hin' (i - s.byteCount.toNat) (by omega)
      rw [show s.byteCount.toNat + (i - s.byteCount.toNat) = i by omega] at this
      simp [this]
  · exact hr h.buf_range

/-- CLEAR keeps the invariant (R122). -/
theorem Invariant.clearStream {s} (h : Invariant s) : Invariant (clearStream s) where
  config_legal := h.config_legal
  part_aligned := by simp
  open_count := by simp
  open_padding := by simp
  closed_fill := by simp
  closed_count := by simp
  closed_zero := by simp
  capacity := by simp [ceilDiv8]
  err_iff := by simp
  err_range := by simp
  buf_wf := h.buf_wf
  buf_written := by simp
  buf_range := h.buf_range

/-- Reset keeps the invariant (R191). -/
theorem Invariant.resetPacker {s} (h : Invariant s) : Invariant (resetPacker s) where
  config_legal := h.config_legal
  part_aligned := by simp
  open_count := by simp
  open_padding := by simp
  closed_fill := by simp
  closed_count := by simp
  closed_zero := by simp
  capacity := by simp [ceilDiv8]
  err_iff := by simp
  err_range := by simp
  buf_wf := by simp
  buf_written := by simp
  buf_range := by simp

/-- The invariant is about the registers, the buffer and the parameter. -/
theorem Invariant.of_ports {s} (h : Invariant s) (fl ins rst rd d) :
    Invariant { s with inFlight := fl, inputs := ins, rst := rst, rdData := rd, draws := d } :=
  ⟨h.config_legal, h.part_aligned, h.open_count, h.open_padding, h.closed_fill, h.closed_count, h.closed_zero,
    h.capacity, h.err_iff, h.err_range, h.buf_wf, h.buf_written, h.buf_range⟩

/-- Taking a read keeps the invariant (R60). -/
theorem Invariant.sampleRead {s} (h : Invariant s) (v) : Invariant (sampleRead v s) := by
  unfold Machine.sampleRead; split
  · exact h.of_ports s.inFlight s.inputs s.rst _ _
  · exact h.of_ports s.inFlight s.inputs s.rst _ _

/-- A partial byte always has room (R102). -/
theorem Invariant.fill_pos_room {s} (h : Invariant s) (hd : s.done = false) (hf : s.fill ≠ 0) :
    s.byteCount.toNat < s.cfg.bufBytes := by
  have hc := h.open_count hd
  have := h.capacity
  have : s.fill.toNat ≠ 0 := fun e => hf (BitVec.eq_of_toNat_eq e)
  simp only [ceilDiv8] at *; omega

/-- Everything the flush of FINALIZE does (R106). -/
theorem Invariant.flush {s} (h : Invariant s) (hd : s.done = false) :
    ∃ u, flush s = .next u ∧ Invariant u ∧
      u = { s with byteCount := u.byteCount, padding := u.padding, fill := 0, part := 0, done := true, buf := u.buf } ∧
      u.byteCount.toNat = (s.totalBits.toNat + 7) / 8 ∧
      u.padding.toNat = (8 - s.fill.toNat) % 8 ∧
      (s.fill = 0 → u.byteCount = s.byteCount ∧ u.buf = s.buf) ∧
      (s.fill ≠ 0 → u.byteCount.toNat = s.byteCount.toNat + 1 ∧ Memory.read s.byteCount.toNat u.buf = some s.part) ∧
      (∀ a, a ≠ s.byteCount.toNat → Memory.read a u.buf = Memory.read a s.buf) := by
  have hc := h.open_count hd
  have hcap := h.capacity
  have hle := h.config_legal
  have hflt := s.fill.isLt
  rcases flush_cases s with ⟨hf, he⟩ | ⟨hf, hr, he⟩ | ⟨hf, hr, he⟩
  · have hf0 : s.fill.toNat = 0 := by rw [hf]; rfl
    refine ⟨_, he, ⟨h.config_legal, by simp, by simp, by simp, by simp, ?_, ?_, h.capacity, h.err_iff, h.err_range, h.buf_wf, h.buf_written, h.buf_range⟩, rfl, ?_, ?_, fun _ => ⟨rfl, rfl⟩, fun hn => absurd hf hn, fun _ _ => rfl⟩
    · intro _; simp; omega
    · intro _ b _; simp; omega
    · simp; omega
    · simp [hf0]
  · have hf0 : s.fill.toNat ≠ 0 := fun e => hf (BitVec.eq_of_toNat_eq e)
    have hB : (BitVec.ofNat 32 (s.byteCount.toNat + 1)).toNat = s.byteCount.toNat + 1 := by
      rw [BitVec.toNat_ofNat]; simp only [ceilDiv8] at hcap; omega
    have hP : (BitVec.ofNat 3 (8 - s.fill.toNat)).toNat = 8 - s.fill.toNat := by
      rw [BitVec.toNat_ofNat]; omega
    refine ⟨_, he, ⟨h.config_legal, by simp, by simp, by simp, by simp, ?_, ?_, h.capacity, h.err_iff, h.err_range, Memory.write_wf h.buf_wf, ?_, ?_⟩, rfl, ?_, ?_, fun hn => absurd hn hf, fun _ => ⟨?_, ?_⟩, ?_⟩
    · intro _; simp only [closeStream_byteCount, closeStream_totalBits, closeStream_padding, hB, hP]; omega
    · intro _ b; simp only [closeStream_byteCount, closeStream_buf, closeStream_padding, hB, hP, Nat.add_sub_cancel, Memory.read_write_same]
      rintro ⟨⟩; exact h.part_aligned
    · simp only [closeStream_byteCount, closeStream_buf, hB]
      intro i hi
      rw [Memory.read_write]; split
      · rfl
      · exact h.buf_written i (by omega)
    · intro c hcm
      rcases Memory.mem_write hcm with rfl | hcm
      · exact hr
      · exact h.buf_range c hcm
    · simp only [closeStream_byteCount, hB]; omega
    · simp only [closeStream_padding, hP]; omega
    · simp only [closeStream_byteCount, hB]
    · exact Memory.read_write_same ..
    · exact fun a ha => Memory.read_write_other _ _ ha
  · exact absurd (h.fill_pos_room hd hf) (by omega)

/-- Every instruction completes and keeps the invariant. -/
theorem Invariant.exec {s} (h : Invariant s) (i : Instr) : ∃ u, exec i s = .next u ∧ Invariant u := by
  have hrec : ∀ c, ∃ u, unlessErr s (raiseError c s) = .next u ∧ Invariant u := fun c => by
    cases he : s.err with
    | true => exact ⟨s, unlessErr_of_err he, h⟩
    | false => exact ⟨_, unlessErr_of_no_err he, h.recordError c⟩
  cases i with
  | nop => exact ⟨s, rfl, h⟩
  | clear => exact ⟨_, rfl, h.clearStream⟩
  | reserved47 op => exact hrec .op
  | reserved8F op => exact hrec .op
  | readReg i => exact ⟨_, rfl, h.sampleRead _⟩
  | readBuf i => exact ⟨_, rfl, h.sampleRead _⟩
  | push len data =>
    rcases execPush_cases len data s with ⟨-, he⟩ | ⟨-, -, he⟩ | ⟨-, -, -, he⟩ | ⟨-, -, -, -, he⟩ | ⟨-, hd, -, hc, he⟩
    · exact ⟨s, he, h⟩
    · exact ⟨_, he, h.recordError _⟩
    · exact ⟨_, he, h.recordError _⟩
    · exact ⟨_, he, h.recordError _⟩
    · obtain ⟨u, hu, hi, -⟩ := h.append hd hc
      exact ⟨u, he.trans hu, hi⟩
  | finalize =>
    rcases execFinalize_cases s with ⟨-, he⟩ | ⟨-, -, he⟩ | ⟨-, hd, he⟩
    · exact ⟨s, he, h⟩
    · exact ⟨_, he, h.recordError _⟩
    · obtain ⟨u, hu, hi, -⟩ := h.flush hd
      exact ⟨u, he.trans hu, hi⟩

/-- No instruction changes the parameter, the command in flight, the pin or the host's actions. -/
theorem exec_ports {i : Instr} {s u : State} (h : exec i s = .next u) :
   u.cfg = s.cfg ∧ u.inFlight = s.inFlight ∧ u.rst = s.rst ∧ u.inputs = s.inputs := by
  have hrec : ∀ c, unlessErr s (raiseError c s) = .next u → u.cfg = s.cfg ∧ u.inFlight = s.inFlight ∧ u.rst = s.rst ∧ u.inputs = s.inputs := fun c h => by
    unfold unlessErr raiseError at h; split at h <;> cases h <;> simp
  cases i with
  | nop => cases h; simp
  | clear => cases h; simp
  | reserved47 op => exact hrec .op h
  | reserved8F op => exact hrec .op h
  | readReg i => cases h; simp
  | readBuf i => cases h; simp
  | push len data =>
    rw [exec_push] at h
    rcases execPush_cases len data s with ⟨-, he⟩ | ⟨-, -, he⟩ | ⟨-, -, -, he⟩ | ⟨-, -, -, -, he⟩ | ⟨-, hd, -, hc, he⟩ <;> rw [he] at h
    iterate 4 (cases h; simp)
    rcases appendBits_cases (n := len.toNat) (code := pushCode len.toNat data) (s := s) with ⟨m, -, ha⟩ | ⟨ha, -⟩ <;> rw [ha] at h <;> cases h
    simp
  | finalize =>
    rw [exec_finalize] at h
    rcases execFinalize_cases s with ⟨-, he⟩ | ⟨-, -, he⟩ | ⟨-, hd, he⟩ <;> rw [he] at h
    iterate 2 (cases h; simp)
    rcases flush_cases s with ⟨hf, he⟩ | ⟨hf, hr, he⟩ | ⟨hf, hr, he⟩ <;> rw [he] at h <;> cases h <;> simp

/-- A PUSH without error is the barrel shifter (R101). -/
theorem exec_push_ok {len data s} (he : s.err = false) (hd : s.done = false) (hl : lenLegal len)
   (hc : ceilDiv8 (s.totalBits.toNat + len.toNat) ≤ s.cfg.bufBytes) : exec (.push len data) s = appendBits len.toNat (pushCode len.toNat data) s := by
  rcases execPush_cases len data s with h' | h' | h' | h' | ⟨-, -, -, hc', hex⟩
  · simp_all
  · simp_all
  · exact absurd hl h'.2.2.1
  · have := h'.2.2.2.1; omega
  · exact hex

/-- A FINALIZE without error is the flush (R106). -/
theorem exec_fin_ok {s} (he : s.err = false) (hd : s.done = false) : exec .finalize s = flush s := by
  rcases execFinalize_cases s with ⟨a, e⟩ | ⟨a, b, e⟩ | ⟨a,b, e⟩ <;> simp_all

/-- What the barrel shifter leaves alone (R103). -/
theorem append_frame {n c s u} (h : appendBits n c s = .next u) :
   u = { s with fill := u.fill, part := u.part, byteCount := u.byteCount, totalBits := u.totalBits, buf := u.buf } := by
  rcases appendBits_cases (n := n) (code := c) (s := s) with ⟨m, -, ha⟩ | ⟨ha, -⟩ <;> rw [ha] at h <;> cases h; rfl

/-- What the flush leaves alone (R106). -/
theorem flush_frame {s u} (h : flush s = .next u) :
   u = { s with byteCount := u.byteCount, padding := u.padding, fill := 0, part := 0, done := true, buf := u.buf } := by
  rcases flush_cases s with ⟨hf, he⟩ | ⟨hf, hr, he⟩ | ⟨hf, hr, he⟩ <;> rw [he] at h <;> cases h <;> rfl

/-- What taking a read leaves alone (R60). -/
theorem sampleRead_frame (v s) : sampleRead v s = { s with rdData := (sampleRead v s).rdData, draws := (sampleRead v s).draws } := by
  unfold sampleRead; split <;> rfl

/-- Everything an instruction that completes can have done. -/
theorem exec_inv {i s u} (h : exec i s = .next u) : 
    (∃ c, s.err = false ∧ u = recordError c s ∧
      ((c = .op ∧ ((∃ op, i = .reserved47 op) ∨ ∃ op, i = .reserved8F op)) ∨
       (c = .done ∧ s.done = true ∧ (i = .finalize ∨ ∃ l d, i = .push l d)) ∨
       (c = .len ∧ s.done = false ∧ ∃ l d, i = .push l d ∧ ¬ lenLegal l) ∨
       (c = .ovf ∧ s.done = false ∧ ∃ l d, i = .push l d ∧ lenLegal l ∧ s.cfg.bufBytes < ceilDiv8 (s.totalBits.toNat + l.toNat)))) ∨
    (s.err = true ∧ u = s ∧ (i = .finalize ∨ (∃ l d, i = .push l d) ∨ (∃ op, i = .reserved47 op) ∨ ∃ op, i = .reserved8F op)) ∨
    (i = .nop ∧ u = s) ∨ (i = .clear ∧ u = clearStream s) ∨
    (∃ v, u = sampleRead v s ∧ ((∃ x, i = .readReg x ∧ v = registerValue x s) ∨ ∃ x, i = .readBuf x ∧ v = bufferValue x s)) ∨
    (s.err = false ∧ s.done = false ∧ i = .finalize ∧ flush s = .next u) ∨
    (s.err = false ∧ s.done = false ∧ ∃ l d, i = .push l d ∧ lenLegal l ∧ ceilDiv8 (s.totalBits.toNat + l.toNat) ≤ s.cfg.bufBytes ∧
      appendBits l.toNat (pushCode l.toNat d) s = .next u) := by
  cases i with
  | nop => cases h; simp
  | clear => cases h; simp
  | readReg x => cases h; right; right; right; right; left; exact ⟨_, rfl, .inl ⟨x, rfl, rfl⟩⟩
  | readBuf x => cases h; right; right; right; right; left; exact ⟨_, rfl, .inr ⟨x, rfl, rfl⟩⟩
  | reserved47 op =>
    cases he : s.err
    · rw [exec_reserved47, execReserved47, unlessErr_of_no_err he] at h; cases h
      left; exact ⟨.op, rfl, rfl, .inl ⟨rfl, .inl ⟨_, rfl⟩⟩⟩
    · rw [exec_reserved47, execReserved47, unlessErr_of_err he] at h; cases h; right; left; simp
  | reserved8F op =>
    cases he : s.err
    · rw [exec_reserved8F, execReserved8F, unlessErr_of_no_err he] at h; cases h
      left; exact ⟨.op, rfl, rfl, .inl ⟨rfl, .inr ⟨_, rfl⟩⟩⟩
    · rw [exec_reserved8F, execReserved8F, unlessErr_of_err he] at h; cases h; right; left; simp
  | push l d =>
    rw [exec_push] at h
    rcases execPush_cases l d s with ⟨a,b⟩ | ⟨a,b,c⟩ | ⟨a,b,c,d⟩ | ⟨a,b,c,d,e⟩ | ⟨a, b, c, d, e⟩
    · rw [b] at h; cases h; right; left; simp [a]
    · rw [c] at h; cases h; left; exact ⟨_, a, rfl, .inr (.inl ⟨rfl, b, .inr ⟨_, _, rfl⟩⟩)⟩
    · rw [d] at h; cases h; left; exact ⟨_, a, rfl, .inr (.inr (.inl ⟨rfl, b, _, _, rfl, c⟩))⟩
    · rw [e] at h; cases h; left; exact ⟨_, a, rfl, .inr (.inr (.inr ⟨rfl, b, _, _, rfl, c, d⟩))⟩
    · rw [e] at h; right; right; right; right; right; right; exact ⟨a, b, _, _, rfl, c, d, h⟩
  | finalize =>
    rw [exec_finalize] at h
    rcases execFinalize_cases s with ⟨a, e⟩ | ⟨a, b, e⟩ | ⟨a,b, e⟩
    · rw [e] at h; cases h; right; left; simp [a]
    · rw [e] at h; cases h; left; exact ⟨_, a, rfl, .inr (.inl ⟨rfl, b, .inl rfl⟩)⟩
    · rw [e] at h; right; right; right; right; right; left; exact ⟨a, b, rfl, h⟩

/-- A read request decodes to a read (R82). -/
theorem decodeRead_isRead (q) : (∃ x, decodeRead q = .readReg x) ∨ ∃ x, decodeRead q = .readBuf x := by
  simp only [decodeRead]; split <;> simp

end Sys2Proof.Machine
end

