-- ==== Sys2Proof/Laws/PerInstr.lean ====
section
/-! SUPPORT. Statements about every instruction as a term, one lemma per constructor. -/

namespace Sys2Proof

/-! ### Fields of the canonical words -/

/-- A canonical word bit by bit (R74). -/
theorem getLsbD_commandWord (op : BitVec 4) (len : BitVec 6) (data : Word) (i : Nat) :
    (commandWord op len data).getLsbD i =
      if i < 32 then data.getLsbD i else (op ++ (0 : BitVec 22) ++ len).getLsbD (i - 32) :=
  (BitVec.getLsbD_append (x := op ++ (0 : BitVec 22) ++ len) (y := data)).trans (by split <;> simp_all)

/-- A read request bit by bit (R82). -/
theorem getLsbD_readWord (b : BitVec 1) (a : Word) (i : Nat) :
    BitVec.getLsbD (b ++ a : ReadWord) i = if i < 32 then a.getLsbD i else b.getLsbD (i - 32) :=
  (BitVec.getLsbD_append (x := b) (y := a)).trans (by split <;> simp_all)

theorem opField_commandWord (op : BitVec 4) (len : BitVec 6) (data : Word) : opField (commandWord op len data) = op := by
  apply BitVec.eq_of_getLsbD_eq
  intro i hi
  rw [opField, BitVec.getLsbD_extractLsb', getLsbD_commandWord, if_neg (by omega), BitVec.getLsbD_append,
    BitVec.getLsbD_append, show 60 + i - 32 - 6 - 22 = i by omega]
  rw [if_neg (by omega), if_neg (by omega)]
  simp [hi]

theorem lenField_commandWord (op : BitVec 4) (len : BitVec 6) (data : Word) : lenField (commandWord op len data) = len := by
  apply BitVec.eq_of_getLsbD_eq
  intro i hi
  rw [lenField, BitVec.getLsbD_extractLsb', getLsbD_commandWord, if_neg (by omega), BitVec.getLsbD_append,
    show 32 + i - 32 = i by omega]
  simp [hi]

theorem dataField_commandWord (op : BitVec 4) (len : BitVec 6) (data : Word) :
    dataField (commandWord op len data) = data := by
  apply BitVec.eq_of_getLsbD_eq
  intro i hi
  rw [dataField, BitVec.getLsbD_extractLsb', getLsbD_commandWord, if_pos (by omega)]
  simp [hi]

theorem spaceField_append (b : BitVec 1) (i : Word) : spaceField (b ++ i) = b := by
  apply BitVec.eq_of_getLsbD_eq
  intro j hj
  rw [spaceField, BitVec.getLsbD_extractLsb', getLsbD_readWord, if_neg (by omega)]
  simp [hj]

theorem addrField_append (b : BitVec 1) (i : Word) : addrField (b ++ i) = i := by
  apply BitVec.eq_of_getLsbD_eq
  intro j hj
  rw [addrField, BitVec.getLsbD_extractLsb', getLsbD_readWord, if_pos (by omega)]
  simp [hj]

namespace Laws.RoundTrip

/-- The decoder reads an instruction from the instruction's own word. -/
def Statement (i : Instr) : Prop := i.wellFormed = true → decode (encode i) = i

theorem nop : Statement .nop := fun _ => by decide

theorem push (len : BitVec 6) (data : Word) : Statement (.push len data) := fun _ => by
  simp [encode, decode, decodeCommand, opField_commandWord, lenField_commandWord, dataField_commandWord]

theorem finalize : Statement .finalize := fun _ => by decide

theorem clear : Statement .clear := fun _ => by decide

theorem reserved47 (op : BitVec 4) : Statement (.reserved47 op) := by
  intro h
  simp only [encode, decode, decodeCommand, opField_commandWord]
  revert h op
  decide

theorem reserved8F (op : BitVec 4) : Statement (.reserved8F op) := by
  intro h
  simp only [encode, decode, decodeCommand, opField_commandWord]
  revert h op
  decide

theorem readReg (i : Word) : Statement (.readReg i) := fun _ => by
  simp [encode, decode, decodeRead, spaceField_append, addrField_append]

theorem readBuf (i : Word) : Statement (.readBuf i) := fun _ => by
  simp [encode, decode, decodeRead, spaceField_append, addrField_append]

end Laws.RoundTrip

end Sys2Proof
end

