-- ==== Sys2Proof/Laws/Stream.lean ====
section
/-! SUPPORT. The stream S, the packed bytes, `pack`, and runs of PUSH commands. -/

namespace Sys2Proof.Machine

theorem State.packedBytes_length (s : State) : s.packedBytes.length = s.byteCount.toNat := by simp [State.packedBytes]

theorem partialBits_length (s : State) : s.partialBits.length = s.fill.toNat := by
  rw [partialBits_eq, bitsOf_length]

theorem bufRead_congr {s u : State} {i} (h : Memory.read i u.buf = Memory.read i s.buf) : bufRead i u = bufRead i s := by
  simp [bufRead, h]

/-- A byte that has been written reads as it was written (R53). -/
theorem bufRead_of_some {s : State} {i b} (h : Memory.read i s.buf = some b) : bufRead i s = b := by
  simp [bufRead, h]

/-- Bytes with the same bits are the same bytes. -/
theorem bytes_inj : ∀ (l l' : List Byte), bitsOfBytes l = bitsOfBytes l' → l = l' := by
    intro l
    induction l with
    | nil => intro l' h; cases l' with
      | nil => rfl
      | cons b l' => simp [bitsOf] at h
    | cons b l ih => intro l' h; cases l' with
      | nil => simp [bitsOf] at h
      | cons b' l' =>
        rw [bitsOfBytes_cons, bitsOfBytes_cons] at h
        obtain ⟨h1, h2⟩ := List.append_inj h (by simp)
        rw [ih _ h2, BitVec.eq_of_toNat_eq (bitsOf_injective b.isLt b'.isLt h1)]

/-- The stream while it is open (R42). -/
theorem Invariant.open_stream {s} (h : Invariant s) (hd : s.done = false) : s.stream = bitsOfBytes s.packedBytes ++ s.partialBits := by
  rw [State.stream, List.take_of_length_le]
  have := h.open_count hd
  simp [partialBits_length, State.packedBytes_length]; omega

/-- The stream has TOTAL_BITS bits (R26, R42, R43). -/
theorem stream_length {s} (h : Invariant s) : s.stream.length = s.totalBits.toNat := by
  rw [State.stream, List.length_take, List.length_append, bitsOfBytes_length, State.packedBytes_length, partialBits_length]
  cases hd : s.done
  · have := h.open_count hd; omega
  · have := h.closed_count hd; omega

/-- The packed bytes after whole bytes have been written behind them. -/
theorem packedBytes_append {s u : State} {bs : List Byte} (hb : u.byteCount.toNat = s.byteCount.toNat + bs.length)
   (hin : ∀ j (hj : j < bs.length), Memory.read (s.byteCount.toNat + j) u.buf = some bs[j])
   (hout : ∀ a < s.byteCount.toNat, Memory.read a u.buf = Memory.read a s.buf) :
   u.packedBytes = s.packedBytes ++ bs := by
  simp only [State.packedBytes]
  rw [hb, List.range_add, List.map_append]
  congr 1
  · exact List.map_congr_left fun i hi => bufRead_congr (hout i (by simpa using hi))
  · rw [List.map_map]
    refine List.ext_getElem (by simp) fun j h1 h2 => ?_
    simp only [List.getElem_map, List.getElem_range, Function.comp]
    exact bufRead_of_some (hin j h2)

/-- The barrel shifter appends the bits of the code to the stream (R40, R101). -/
theorem Invariant.append_stream {s} (h : Invariant s) (hd : s.done = false) {len data} (hc : ceilDiv8 (s.totalBits.toNat + len.toNat) ≤ s.cfg.bufBytes)
   {u} (hu : appendBits len.toNat (pushCode len.toNat data) s = .next u) : u.stream = s.stream ++ pushBits len data := by
  obtain ⟨u', hu', hi, hfr, hf, hp, hB, hT, hin, hout⟩ := h.append (code := pushCode len.toNat data) hd hc
  rw [hu] at hu'; cases hu'
  have hdu : u.done = false := by rw [hfr]; exact hd
  rw [hi.open_stream hdu, h.open_stream hd, List.append_assoc, ← bitsOf_shifterValue, ← bitsOf_whole_and_rest,
    packedBytes_append (bs := wholeBytes (shifterValue s len.toNat (pushCode len.toNat data)) (s.fill.toNat + len.toNat) ((s.fill.toNat + len.toNat)/8)) (by simpa using hB) ?_ (fun a ha => hout a (.inl ha)), bitsOfBytes_append, List.append_assoc]
  · congr 2
    rw [State.partialBits, hp, hf, remainderByte_bits (by omega)]
  · intro j hj
    rw [hin j (by simpa using hj)]; simp [wholeBytes]

/-- The flush keeps the stream and pads its last byte with zeros (R43, R106). -/
theorem Invariant.flush_stream {s} (h : Invariant s) (hd : s.done = false) {u} (hu : Machine.flush s = .next u) :
   u.stream = s.stream ∧ bitsOfBytes u.packedBytes = s.stream ++ List.replicate u.padding.toNat false := by
  obtain ⟨u', hu', hi, hfr, hB, hP, h0, h1, hout⟩ := h.flush hd
  rw [hu] at hu'; cases hu'
  have hcnt := h.open_count hd
  have hst := h.open_stream hd
  have hlen : s.stream.length = s.totalBits.toNat := by
    rw [hst]; simp [partialBits_length, State.packedBytes_length]; omega
  have key : bitsOfBytes u.packedBytes = s.stream ++ List.replicate u.padding.toNat false := by
    by_cases hf : s.fill = 0
    · obtain ⟨hb, hm⟩ := h0 hf
      have hf0 : s.fill.toNat = 0 := by rw [hf]; rfl
      have : u.packedBytes = s.packedBytes := by
        simp [State.packedBytes, hb, bufRead, hm]
      rw [this, hst, hP, State.partialBits, hf0]; simp
    · obtain ⟨hb, hm⟩ := h1 hf
      have hf0 : s.fill.toNat ≠ 0 := fun e => hf (BitVec.eq_of_toNat_eq e)
      have hflt := s.fill.isLt
      rw [packedBytes_append (s := s) (bs := [s.part]) (by simpa using hb) ?_ (fun a ha => hout a (by omega)), bitsOfBytes_append, hst, List.append_assoc]
      · congr 1
        rw [bitsOfBytes_cons, bitsOfBytes_nil, List.append_nil, ← List.take_append_drop s.fill.toNat (bitsOf 8 s.part.toNat), State.partialBits]
        congr 1
        · rw [hP]
          have := bitsOf_add s.fill.toNat (8 - s.fill.toNat) s.part.toNat
          rw [show s.fill.toNat + (8 - s.fill.toNat) = 8 by omega] at this
          rw [this, List.drop_left' (by simp), ← bitsOf_mod, h.part_aligned, Nat.mod_eq_of_lt (show 8 - s.fill.toNat < 8 by omega)]
          generalize 8 - s.fill.toNat = n
          induction n with
          | zero => rfl
          | succ n ih => simp [bitsOf, List.replicate_succ, ih]
      · intro j hj
        simp only [List.length_singleton, Nat.lt_one_iff] at hj; subst hj; simpa using hm
  refine ⟨?_, key⟩
  have hT : u.totalBits = s.totalBits := by rw [hfr]
  have hpb : u.partialBits = [] := by
    have : u.fill = 0 := by rw [hfr]
    simp [State.partialBits, this]
  rw [State.stream, key, hpb, List.append_nil, hT, List.take_left' hlen]

/-- A run of two lists is the run of the second after the first. -/
theorem execAll_append (is js : List Instr) (s : State) : execAll (is ++ js) s = match execAll is s with
   | .next t => execAll js t | .fault f => .fault f | .refused r => .refused r := by
  induction is generalizing s with
  | nil => rfl
  | cons i is ih => simp only [List.cons_append, execAll]; cases exec i s <;> simp [ih]

/-- PUSH commands that fit all complete without error and append their stream (R40). -/
theorem pushes_run (ps : List (BitVec 6 × Word)) : ∀ {s : State}, Invariant s → s.err = false → s.done = false → AllLegal ps →
    ceilDiv8 (s.totalBits.toNat + (streamOf ps).length) ≤ s.cfg.bufBytes →
    ∃ u, execAll (pushes ps) s = .next u ∧ Invariant u ∧ u.stream = s.stream ++ streamOf ps ∧
     u = { s with fill := u.fill, part := u.part, byteCount := u.byteCount, totalBits := u.totalBits, buf := u.buf } ∧
     s.byteCount.toNat ≤ u.byteCount.toNat ∧
     ∀ a, u.byteCount.toNat ≤ a → Memory.read a u.buf = Memory.read a s.buf := by
  induction ps with
  | nil => intro s h he hd _ _; exact ⟨s, rfl, h, by simp [streamOf], rfl, Nat.le_refl _, fun _ _ => rfl⟩
  | cons p ps ih =>
    intro s h he hd hl hc
    have hl1 : lenLegal p.1 := hl p (by simp)
    have hst : streamOf (p :: ps) = pushBits p.1 p.2 ++ streamOf ps := by simp [streamOf]
    have hc1 : ceilDiv8 (s.totalBits.toNat + p.1.toNat) ≤ s.cfg.bufBytes := by
      rw [hst] at hc; simp [ceilDiv8] at hc ⊢; omega
    obtain ⟨u, hu, hiu, fu, -, -, hB, hT, -, hout⟩ := h.append (code := pushCode p.1.toNat p.2) hd hc1
    have hsu := h.append_stream hd hc1 hu
    have e1 : u.err = false := by rw [fu]; exact he
    have e2 : u.done = false := by rw [fu]; exact hd
    have e3 : u.cfg = s.cfg := by rw [fu]
    obtain ⟨v, hv, hiv, hsv, fv, hle, hov⟩ := ih hiu e1 e2 (fun q hq => hl q (by simp [hq])) (by
      rw [hT, e3]; rw [hst] at hc; simpa [Nat.add_assoc] using hc)
    refine ⟨v, ?_, hiv, ?_, ?_, by omega, ?_⟩
    · simp only [pushes, List.map_cons, execAll, exec_push_ok he hd hl1 hc1, hu]
      exact hv
    · rw [hsv, hsu, hst, List.append_assoc]
    · rw [fv, fu]
    · intro a ha; rw [hov a ha]; exact hout a (.inr (by omega))

/-- … from CLEAR on (R40). -/
theorem clear_run {s : State} (h : Invariant s) (ps) (hl : AllLegal ps) (hc : (streamOf ps).length ≤ 8 * s.cfg.bufBytes) :
   ∃ u, execAll (.clear :: pushes ps) s = .next u ∧ Invariant u ∧ u.stream = streamOf ps ∧ u.err = false ∧ u.done = false ∧ u.cfg = s.cfg ∧ u.totalBits.toNat = (streamOf ps).length := by
  obtain ⟨u, hu, hiu, hsu, fu, -⟩ := pushes_run ps h.clearStream rfl rfl hl (by simp [ceilDiv8]; omega)
  have : (clearStream s).stream = [] := by simp [State.stream]
  rw [this, List.nil_append] at hsu
  exact ⟨u, hu, hiu, hsu, by rw [fu]; rfl, by rw [fu]; rfl, by rw [fu]; rfl, by rw [← stream_length hiu, hsu]⟩

/-- The bits of `pack` are the stream and zeros up to a byte boundary (R2). -/
theorem packBytes_bits (n : Nat) : ∀ s : List Bool, s.length ≤ n → bitsOfBytes (packBytes n s) = s ++ List.replicate ((8 - s.length % 8) % 8) false := by
  induction n with
  | zero => intro s h; have : s = [] := List.length_eq_zero_iff.1 (by omega); subst this; rfl
  | succ n ih =>
    intro s h
    match s with
    | [] => rfl
    | b :: s' =>
      simp only [packBytes]
      generalize hs : b :: s' = s at *
      have hl : (s.take 8 ++ List.replicate (8 - s.length) false).length = 8 := by simp; omega
      have hpos : 1 ≤ s.length := by rw [← hs]; simp
      have e := bitsOf_valOf (s.take 8 ++ List.replicate (8 - s.length) false)
      rw [hl] at e
      rw [bitsOfBytes_cons, bitsOf_byte, e, ih _ (by simp; omega)]
      by_cases h8 : 8 ≤ s.length
      · rw [show 8 - s.length = 0 by omega]
        simp only [List.replicate_zero, List.append_nil, ← List.append_assoc, List.take_append_drop]
        congr 2; simp; omega
      · rw [List.take_of_length_le (by omega), List.drop_of_length_le (by omega)]
        simp; omega

end Sys2Proof.Machine
end

