-- ==== Sys2Proof/Tests/Slice0.lean ====
section
/-! SUPPORT. The model's own tests: ill-formed terms, decoding of words written out from 30_encoding.md, single steps with the
results that 95_test_vectors.md and the worked examples give, and a witness for the hypotheses of every statement. -/

namespace Sys2Proof.Tests

open Sys2Proof.Machine

/-! ### Well-formedness -/

theorem test_wellFormed_reserved47_below : (Instr.reserved47 3).wellFormed = false := by decide

theorem test_wellFormed_reserved47_above : (Instr.reserved47 8).wellFormed = false := by decide

theorem test_wellFormed_reserved8F_below : (Instr.reserved8F 7).wellFormed = false := by decide

/-! ### Decoding (R74, R75, R82): words written field by field, OP_RSV_LEN_DATA, with every ignored bit set somewhere -/

theorem test_decode_nop_all_other_bits : decodeTableWord 64
    0b0000_1111111111111111111111_111111_11111111111111111111111111111111 = some .nop := by decide

theorem test_decode_push : decodeTableWord 64
    0b0001_0000000000000000000000_000100_00000000000000000000000000001110 = some (.push 4 0b1110) := by decide

theorem test_decode_push_rsv_set : decodeTableWord 64
    0b0001_1111111111111111111111_100001_10000000000000000000000000000001 = some (.push 33 0x80000001) := by decide

theorem test_decode_finalize : decodeTableWord 64
    0b0010_1000000000000000000001_111111_11111111111111111111111111111111 = some .finalize := by decide

theorem test_decode_clear : decodeTableWord 64
    0b0011_0000000000000000000000_000000_00000000000000000000000000000000 = some .clear := by decide

theorem test_decode_reserved4 : decodeTableWord 64
    0b0100_0000000000000000000000_000000_00000000000000000000000000000000 = some (.reserved47 4) := by decide

theorem test_decode_reserved7 : decodeTableWord 64
    0b0111_1111111111111111111111_111111_11111111111111111111111111111111 = some (.reserved47 7) := by decide

theorem test_decode_reserved8 : decodeTableWord 64
    0b1000_0000000000000000000000_000000_00000000000000000000000000000000 = some (.reserved8F 8) := by decide

theorem test_decode_reservedF : decodeTableWord 64
    0b1111_0000000000000000000000_000000_00000000000000000000000000000000 = some (.reserved8F 15) := by decide

theorem test_decode_readReg : decodeTableWord 40 0b0_00000000000000000000000000001000 = some (.readReg 8) := by decide

theorem test_decode_readBuf : decodeTableWord 40 0b1_11111111111111111111111111111111 = some (.readBuf 0xFFFFFFFF) := by decide

theorem test_decode_above_a_format : decodeTableWord 40 0x200000000 = none ∧ decodeTableWord 72 0 = none := by decide

/-! ### Single steps (95_test_vectors.md, sections 2.1 to 2.5) -/

/-- A state with given BUF_BYTES and registers, at reset values elsewhere. -/
def testState (cap : Nat) (fill : BitVec 3) (part : Byte) (bc tb : Word) (pad : BitVec 3) (done err : Bool) (code : BitVec 3)
    (buf : Memory) : State :=
  { State.resetWith ⟨cap⟩ with
    fill := fill, part := part, byteCount := bc, totalBits := tb, padding := pad, done := done, err := err
    errCode := code, buf := buf }

/-- The next state, if there is one. -/
def after : Result → Option State
  | .next s => some s
  | .fault _ => none
  | .refused _ => none

/-- One step with a command word presented. -/
def runWord (w : CommandWord) (s : State) : Option State := after (step (presentNext (.command w) s))

/-- One step with a read request taken: the value read. -/
def runRead (q : ReadWord) (s : State) : Option Word := (after (step (presentNext (.read q) s))).map (·.rdData)

/-- PUSH-4: the most a PUSH writes. -/
theorem test_push_four_bytes :
    runWord 0x1000002012345678 (testState 16 7 0xFE 0 7 0 false false 0 []) =
      some (testState 16 7 0xF0 4 39 0 false false 0 [(0, 0xFE), (1, 0x24), (2, 0x68), (3, 0xAC)]) := by decide

/-- PUSH-17: the capacity check counts the padded byte. -/
theorem test_push_overflow_counts_padding :
    runWord 0x1000000100000000 (testState 1 0 0 1 8 0 false false 0 [(0, 0x11)]) =
      some (testState 1 0 0 1 8 0 false true 4 [(0, 0x11)]) := by decide

/-- FIN-4: FILL = 7. -/
theorem test_finalize_fill7 :
    runWord 0x2000000000000000 (testState 16 7 0xFE 3 31 0 false false 0 [(0, 1), (1, 2), (2, 3)]) =
      some (testState 16 0 0 4 31 1 true false 0 [(0, 1), (1, 2), (2, 3), (3, 0xFE)]) := by decide

/-- FIN-5: a second FINALIZE records E_DONE. -/
theorem test_finalize_twice :
    runWord 0x2000000000000000 (testState 16 0 0 1 3 5 true false 0 [(0, 0x60)]) =
      some (testState 16 0 0 1 3 5 true true 3 [(0, 0x60)]) := by decide

/-- NOP-2: a non-canonical NOP while ERR = 1. -/
theorem test_nop_while_err :
    runWord 0x0FFFFFFFFFFFFFFF (testState 16 0 0 0 0 0 false true 1 []) =
      some (testState 16 0 0 0 0 0 false true 1 []) := by decide

/-- CLR-1: CLEAR from an error; the buffer stays (R123). -/
theorem test_clear_from_error :
    runWord 0x3000000000000000 (testState 16 4 0xC0 1 12 0 false true 4 [(0, 0xAB)]) =
      some (testState 16 0 0 0 0 0 false false 0 [(0, 0xAB)]) := by decide

/-- RSV-1: OP = 0x4. -/
theorem test_reserved4_records_e_op :
    runWord 0x4000000000000000 (testState 16 0 0 0 0 0 false false 0 []) =
      some (testState 16 0 0 0 0 0 false true 1 []) := by decide

/-- RSV-2: OP = 0xF with DONE = 1 records E_OP, not E_DONE. -/
theorem test_reservedF_wins_over_done :
    runWord 0xF000000000000000 (testState 16 0 0 0 0 0 true false 0 []) =
      some (testState 16 0 0 0 0 0 true true 1 []) := by decide

/-- RSV-3: OP = 0x8 with ERR = 1 is ignored. -/
theorem test_reserved8_ignored_while_err :
    runWord 0x8000000000000000 (testState 16 0 0 0 0 0 true true 3 []) =
      some (testState 16 0 0 0 0 0 true true 3 []) := by decide

/-- The state R-A of section 2.5 (after program P4). -/
def stateRA : State := testState 16 0 0 5 35 5 true false 0 [(0, 0xBB), (1, 0xD5), (2, 0xB7), (3, 0xDD), (4, 0xE0)]

/-- RD-7, RD-9: PADDING and STATUS. -/
theorem test_readReg_padding_status :
    runRead 0x000000006 stateRA = some 0x00000005 ∧ runRead 0x000000008 stateRA = some 0x00000001 := by decide

/-- RD-8, RD-11: CAPACITY and an unmapped index. -/
theorem test_readReg_capacity_unmapped :
    runRead 0x000000007 stateRA = some 0x00000010 ∧ runRead 0x0FFFFFFFF stateRA = some 0 := by decide

/-- RD-12, RD-13, RD-14: the first byte, the last byte, and the index BYTE_COUNT. -/
theorem test_readBuf_bytes :
    runRead 0x100000000 stateRA = some 0xBB ∧ runRead 0x100000004 stateRA = some 0xE0 ∧
      runRead 0x100000005 stateRA = some 0 := by decide

/-- RD-19: the partial byte is not in the buffer. -/
theorem test_readBuf_partial_byte :
    runRead 0x100000000 (testState 16 3 0xA0 0 3 0 false false 0 []) = some 0 := by decide

/-- The opcode table's word, run as the first instruction after reset (PUSH-1). -/
theorem test_first_instruction_after_reset :
    (after (step (State.reset.withFetchWord 64 0x1000000100000001))).map (fun u => (u.fill, u.part, u.totalBits)) =
      some (1, 0x80, 1) := by decide

/-! ### The bit conventions (R14) and the assembler's text (R83, R84) -/

theorem test_bits_are_highest_first : bitsOf 3 0b110 = [true, true, false] ∧ valOf [true, true, false] = 6 := by decide

/-- §8's `"abb"` with {a:"0", b:"1"} (S3): 0x60 and five padding bits. -/
theorem test_pack_abb : pack [false, true, true] = ([0x60], 5) := by decide

theorem test_assembler_push_text : assembleText "PUSH 4, 0b1110 ; c".toList = .ok [.command 0x100000040000000E] := by decide

theorem test_assembler_refuses : assembleText "PUSH 33, 0".toList = .error .pushLength ∧
    assembleText "PUSH 4, 16".toList = .error .pushValue ∧ assembleText "PUSHS \"\"".toList = .error .emptyString := by decide

theorem test_assembler_emit8_rdbuf : assembleText "EMIT8 0xAB\nRDBUF 1".toList =
    .ok [.command 0x10000008000000AB, .read 0x100000001] := by decide

/-! ### States the witnesses use -/

/-- Open, in the middle of a byte, with room for 4 more bits: the stream of 12 bits 0xABC in a buffer of 2 bytes. -/
def openState : State := testState 2 4 0xC0 1 12 0 false false 0 [(0, 0xAB)]

/-- Open and full: the stream 0xABCD fills the buffer. -/
def fullState : State := testState 2 0 0 2 16 0 false false 0 [(0, 0xAB), (1, 0xCD)]

/-- FILL = 7, in the last byte of the buffer. -/
def fill7State : State := testState 1 7 0xFE 0 7 0 false false 0 []

/-- FILL = 1, and the stream so far is one zero: PART = 0. -/
def fill1State : State := testState 1 1 0x00 0 1 0 false false 0 []

/-- Finalized with four padding bits. -/
def doneState : State := testState 2 0 0 2 12 4 true false 0 [(0, 0xAB), (1, 0xC0)]

/-- An error recorded in the open stream. -/
def errState : State := testState 2 4 0xC0 1 12 0 false true 4 [(0, 0xAB)]

/-- A command in flight. -/
def busyState : State := { openState with inFlight := some 0x1000000400000005 }

/-- After CLEAR: the registers at reset, the buffer's old bytes still there. -/
def clearedState : State := testState 2 0 0 0 0 0 false false 0 [(0, 0xAB), (1, 0xC0)]

/-- rst held at 1. -/
def inResetState : State := { testState 2 0 0 0 0 0 false false 0 [] with rst := true }

theorem openState_invariant : Invariant openState :=
  ⟨by decide, by decide, by decide, by decide, by decide, by decide, (fun h => by cases h), by decide, by decide, by decide,
    by decide, by decide, by decide⟩

theorem fullState_invariant : Invariant fullState :=
  ⟨by decide, by decide, by decide, by decide, by decide, by decide, (fun h => by cases h), by decide, by decide, by decide,
    by decide, by decide, by decide⟩

theorem fill7State_invariant : Invariant fill7State :=
  ⟨by decide, by decide, by decide, by decide, by decide, by decide, (fun h => by cases h), by decide, by decide, by decide,
    by decide, by decide, by decide⟩

theorem fill1State_invariant : Invariant fill1State :=
  ⟨by decide, by decide, by decide, by decide, by decide, by decide, (fun h => by cases h), by decide, by decide, by decide,
    by decide, by decide, by decide⟩

theorem doneState_invariant : Invariant doneState :=
  ⟨by decide, by decide, by decide, by decide, by decide, by decide, (fun _ b h => by cases h; decide), by decide, by decide,
    by decide, by decide, by decide, by decide⟩

theorem errState_invariant : Invariant errState := openState_invariant.recordError .ovf

theorem busyState_invariant : Invariant busyState :=
  openState_invariant.of_ports _ openState.inputs openState.rst openState.rdData openState.draws

theorem inResetState_invariant : Invariant inResetState :=
  ⟨by decide, by decide, by decide, by decide, by decide, by decide, (fun h => by cases h), by decide, by decide, by decide,
    by decide, by decide, by decide⟩

theorem clearedState_invariant : Invariant clearedState := doneState_invariant.clearStream

theorem inResetState_portInv : PortInv inResetState := by decide

theorem allLegal_of_all {ps : List (BitVec 6 × Word)} (h : ps.all (fun p => decide (lenLegal p.1)) = true) : AllLegal ps := by
  simpa using h

/-! ### Witnesses: for each statement with hypotheses, operands and states that meet them, clause by clause -/

theorem witness_DecoderIsTheSpecsTotalMap :
    (0x0FFFFFFFFFFFFFFF : CommandWord).toNat / 2 ^ 60 = 0 ∧ (0x1000000000000000 : CommandWord).toNat / 2 ^ 60 = 1 ∧
    (0x2FFFFFFFFFFFFFFF : CommandWord).toNat / 2 ^ 60 = 2 ∧ (0x3000000000000000 : CommandWord).toNat / 2 ^ 60 = 3 ∧
    (0x4000000000000000 : CommandWord).toNat / 2 ^ 60 = 4 ∧ (0x7FFFFFFFFFFFFFFF : CommandWord).toNat / 2 ^ 60 = 7 ∧
    (0x8000000000000000 : CommandWord).toNat / 2 ^ 60 = 8 ∧ (0xFFFFFFFFFFFFFFFF : CommandWord).toNat / 2 ^ 60 = 15 ∧
    openState.err = false := by decide

theorem witness_EveryRequestWordIsARead :
    (0x0FFFFFFFF : ReadWord).toNat / 2 ^ 32 = 0 ∧ (0x100000000 : ReadWord).toNat / 2 ^ 32 = 1 := by decide

theorem witness_DecodeOfEncodeIsTheInstruction :
    (Instr.push 63 0xFFFFFFFF).wellFormed = true ∧ (Instr.reserved47 4).wellFormed = true ∧
    (Instr.reserved47 7).wellFormed = true ∧ (Instr.reserved8F 8).wellFormed = true ∧
    (Instr.reserved8F 15).wellFormed = true ∧ (Instr.readBuf 0xFFFFFFFF).wellFormed = true := by decide

theorem witness_EncodeOfDecodeZeroesIgnoredFields :
    (0x1FFFFFC10000000F : CommandWord).toNat / 2 ^ 60 = 1 ∧ (0x2000000000000001 : CommandWord).toNat / 2 ^ 60 ≠ 1 := by decide

theorem witness_IgnoredFieldsHaveNoEffect :
    ((0x1FFFFFC10000000F : CommandWord).toNat / 2 ^ 60 = (0x100000010000000F : CommandWord).toNat / 2 ^ 60 ∧
      (0x1FFFFFC10000000F : CommandWord).toNat % 2 ^ 38 = (0x100000010000000F : CommandWord).toNat % 2 ^ 38) ∧
    (0x2FFFFFFFFFFFFFFF : CommandWord).toNat / 2 ^ 60 = (0x2000000000000000 : CommandWord).toNat / 2 ^ 60 ∧
    (0x2FFFFFFFFFFFFFFF : CommandWord).toNat / 2 ^ 60 ≠ 1 := by decide

theorem witness_DecoderFollowsTheOpcodeTable : commandTable.length = 6 := by decide

/-- Each clause of PUSH: ignored, E_DONE, E_LEN at 0 and 33, E_OVF by one bit, and success with exact fit. -/
theorem witness_PushIsTheBarrelShifter :
    errState.err = true ∧
    (doneState.err = false ∧ doneState.done = true) ∧
    (openState.err = false ∧ openState.done = false ∧ ((0 : BitVec 6).toNat = 0 ∧ 32 < (33 : BitVec 6).toNat)) ∧
    openState.cfg.bufBytes < (openState.totalBits.toNat + (5 : BitVec 6).toNat + 7) / 8 ∧
    (Invariant openState ∧ (openState.totalBits.toNat + (4 : BitVec 6).toNat + 7) / 8 ≤ openState.cfg.bufBytes) :=
  ⟨by decide, by decide, by decide, by decide, openState_invariant, by decide⟩

theorem witness_PushAppendsDataBitsHighestFirst :
    Invariant openState ∧ openState.err = false ∧ openState.done = false ∧ lenLegal 4 ∧
    ceilDiv8 (openState.totalBits.toNat + (4 : BitVec 6).toNat) ≤ openState.cfg.bufBytes ∧
    (∀ j < (4 : BitVec 6).toNat, (0xFFFFFFF5 : Word).getLsbD j = (0x00000005 : Word).getLsbD j) :=
  ⟨openState_invariant, by decide⟩

/-- As PushIsTheBarrelShifter, with the largest legal length for E_OVF and the smallest for success. -/
theorem witness_PushErrorsInOrderAndFlagsKept :
    errState.err = true ∧ (doneState.err = false ∧ doneState.done = true) ∧
    (fullState.err = false ∧ fullState.done = false ∧ 32 < (63 : BitVec 6).toNat) ∧
    fullState.cfg.bufBytes < (fullState.totalBits.toNat + (32 : BitVec 6).toNat + 7) / 8 ∧
    (Invariant fill7State ∧ (fill7State.totalBits.toNat + (1 : BitVec 6).toNat + 7) / 8 ≤ fill7State.cfg.bufBytes) :=
  ⟨by decide, by decide, by decide, by decide, fill7State_invariant, by decide⟩

theorem witness_PushCapacityCheckLeavesRoomForFinalize :
    (Invariant fullState ∧ fullState.err = false ∧ fullState.done = false ∧ lenLegal 1 ∧
      fullState.cfg.bufBytes < (fullState.totalBits.toNat + (1 : BitVec 6).toNat + 7) / 8) ∧
    (Invariant openState ∧ openState.err = false ∧ openState.done = false ∧ lenLegal 4 ∧
      (openState.totalBits.toNat + (4 : BitVec 6).toNat + 7) / 8 = openState.cfg.bufBytes) :=
  ⟨⟨fullState_invariant, by decide⟩, openState_invariant, by decide⟩

theorem witness_FinalizeFlushesAndCloses :
    (0x2000003FFFFFFFFF : CommandWord).toNat / 2 ^ 60 = 2 ∧ errState.err = true ∧
    (doneState.err = false ∧ doneState.done = true) ∧
    (fullState.err = false ∧ fullState.done = false ∧ fullState.fill = 0) ∧
    (Invariant fill7State ∧ fill7State.err = false ∧ fill7State.done = false ∧ fill7State.fill ≠ 0) :=
  ⟨by decide, by decide, by decide, by decide, fill7State_invariant, by decide⟩

theorem witness_FinalizeCornerCases :
    (∀ s ∈ [State.reset, fullState, fill7State, fill1State], s.err = false ∧ s.done = false) ∧
    State.reset.totalBits = 0 ∧ fullState.totalBits.toNat % 8 = 0 ∧
    (Invariant fill7State ∧ fill7State.fill = 7) ∧
    (Invariant fill1State ∧ fill1State.fill = 1 ∧ fill1State.totalBits.toNat % 8 ≠ 0 ∧ fill1State.part = 0) :=
  ⟨by decide, by decide, by decide, ⟨fill7State_invariant, by decide⟩, fill1State_invariant, by decide⟩

theorem witness_FinalizePaddingLaw : Invariant openState ∧ openState.err = false ∧ openState.done = false :=
  ⟨openState_invariant, by decide⟩

theorem witness_PackedBytesGiveTheStreamBack : Invariant fill1State ∧ fill1State.err = false ∧ fill1State.done = false :=
  ⟨fill1State_invariant, by decide⟩

theorem witness_NopChangesNothing : (0x0123456789ABCDEF : CommandWord).toNat / 2 ^ 60 = 0 := by decide

theorem witness_ClearResetsTheStreamAndAloneClearsErrors :
    (0x3123456789ABCDEF : CommandWord).toNat / 2 ^ 60 = 3 ∧ errState.err = true ∧
    (after (exec .clear errState)).map (·.err) = some false := by decide

theorem witness_ReservedOpcodesRecordEOp :
    4 ≤ (0x4000000000000000 : CommandWord).toNat / 2 ^ 60 ∧ 4 ≤ (0xFFFFFFFFFFFFFFFF : CommandWord).toNat / 2 ^ 60 := by decide

/-- Each of the four errors, recorded from a state with ERR = 0. -/
theorem witness_ErrorsArePrecise :
    openState.err = false ∧ doneState.err = false ∧
    ((after (exec (.reserved47 4) openState)).map fun u => (u.err, u.errCode)) = some (true, 1) ∧
    ((after (exec (.push 0 0) openState)).map fun u => (u.err, u.errCode)) = some (true, 2) ∧
    ((after (exec .finalize doneState)).map fun u => (u.err, u.errCode)) = some (true, 3) ∧
    ((after (exec (.push 5 0) openState)).map fun u => (u.err, u.errCode)) = some (true, 4) := by decide

/-- … and NOP, which records none. -/
theorem witness_ErrorsHaveExactlyTheirCauses :
    openState.err = false ∧ ((after (exec (.reserved8F 15) openState)).map fun u => (u.err, u.errCode)) = some (true, 1) ∧
    ((after (exec (.push 33 0) openState)).map fun u => (u.err, u.errCode)) = some (true, 2) ∧
    ((after (exec (.push 0 0) doneState)).map fun u => (u.err, u.errCode)) = some (true, 3) ∧
    ((after (exec (.push 1 0) fullState)).map fun u => (u.err, u.errCode)) = some (true, 4) ∧
    (after (exec .nop openState)).isSome = true := by decide

theorem witness_StickyErrorFreezesTheStream : errState.err = true ∧ cmdReady errState = true := by decide

/-- A step that ignores a PUSH while ERR = 1, a CLEAR, and a reset. -/
theorem witness_TheFirstErrorWins :
    errState.err = true ∧
    (runWord 0x1000000000000000 errState).map (·.errCode) = some 4 ∧
    (runWord 0x3000000000000000 errState).map (·.errCode) = some 0 ∧
    (after (step { errState with inputs := [.raiseRst] })).map (·.rst) = some true := by decide

theorem witness_FlagsHaveOnlyTheirWriters :
    (after (exec .finalize openState)).map (fun u => (u.done, u.padding)) = some (true, 4) ∧
    (openState.done, openState.padding) = (false, 0) ∧
    (after (exec .clear doneState)).map (fun u => (u.done, u.padding)) = some (false, 0) ∧
    (doneState.done, doneState.padding) = (true, 4) ∧
    (after (exec (.reserved47 5) openState)).map (fun u => (u.err, u.errCode)) = some (true, 1) ∧
    (after (exec (.readReg 2) openState)).map (·.rdData) = some 1 := by decide

/-- A read taken while a command is in flight, a PUSH that writes a byte, and a read of BYTE_COUNT. -/
theorem witness_InstructionsLeavePortsAlone :
    (after (exec (.readReg 2) busyState)).map (·.draws) = some 1 ∧ busyState.draws = 0 ∧ cmdReady busyState = false ∧
    (after (exec (.push 4 5) openState)).map (·.buf) = some [(0, 0xAB), (1, 0xC5)] ∧
    (after (exec (.readReg 2) openState)).map (·.rdData) = some 1 ∧ openState.rdData = 0 := by decide

theorem witness_ReadRegReturnsTheRegisterMap :
    cmdReady openState = true ∧ 0x9 ≤ (0x9 : Word).toNat ∧ 0x9 ≤ (0xFFFFFFFF : Word).toNat := by decide

/-- The last written byte, the index BYTE_COUNT, and the index BUF_BYTES. -/
theorem witness_ReadBufReturnsWrittenBytesOnly :
    Invariant openState ∧ cmdReady openState = true ∧ (0 : Word).toNat < openState.byteCount.toNat ∧
    openState.byteCount.toNat ≤ (1 : Word).toNat ∧ openState.cfg.bufBytes ≤ (2 : Word).toNat :=
  ⟨openState_invariant, by decide⟩

theorem witness_HazardReadsCompleteWithSomeValue : busyState.inFlight.isSome = true ∧ inResetState.rst = true := by decide

/-- An idle state and a read; a step that takes a read, one that runs a command, and one that resets. -/
theorem witness_ReadsAreIdempotentAndOnlyCommandsChangeState :
    cmdReady openState = true ∧ (after (exec (.readBuf 0) openState)).map (·.rdData) = some 0xAB ∧
    runRead 0x100000000 openState = some 0xAB ∧
    (runWord 0x2000000000000000 openState).map (·.done) = some true ∧
    (after (step { openState with inputs := [.raiseRst] })).map (·.totalBits) = some 0 := by decide

theorem witness_ResetClearsEveryRegister :
    ({ busyState with inputs := [.raiseRst, .releaseRst] }).inputs = .raiseRst :: [.releaseRst] := by decide

theorem witness_NoCommandIsAcceptedDuringReset :
    ∀ ins ∈ [[HostAction.present (.command 0)], [.offer 0], [.present (.read 0)], [.releaseRst, .present (.command 0)]],
      ({ inResetState with inputs := ins }).rst = true ∧ PortInv { inResetState with inputs := ins } ∧
      ({ inResetState with inputs := ins }).inputs = ins := by decide

/-- Ready, and busy with a command of its own. -/
theorem witness_HandshakeAcceptsWhenReady :
    cmdReady { openState with inputs := [.offer 0] } = true ∧ busyState.rst = false ∧
    busyState.inFlight = some 0x1000000400000005 ∧
    ({ busyState with inputs := [.offer 0] }).inputs = [.offer 0] ∧
    ({ busyState with inputs := [.present (.command 0)] }).inputs = [.present (.command 0)] := by decide

theorem witness_StepRunsTheDecodedInstruction :
    cmdReady { openState with inputs := [.present (.command 0)] } = true ∧
    (∀ ins ∈ [[], [HostAction.idle]], ({ busyState with inputs := ins }).inputs = ins ∧
      ({ busyState with inputs := ins }).rst = false ∧
      ({ busyState with inputs := ins }).inFlight = some 0x1000000400000005) := by decide

theorem witness_IdlePackerHoldsItsState :
    cmdReady openState = true ∧ openState.inputs = [] ∧ cmdReady { openState with inputs := [.idle] } = true := by decide

/-- A PUSH offered, two reads while it is in flight, and the edge at which it completes. -/
theorem witness_LatencyDoesNotChangeTheResult :
    cmdReady { openState with
      inputs := [.offer 0x1000000400000005, .present (.read 0), .present (.read 1), .idle, .present (.read 2)] } = true ∧
    [HostAction.offer 0x1000000400000005, .present (.read 0), .present (.read 1), .idle, .present (.read 2)] =
      .offer 0x1000000400000005 :: (([0, 1] : List ReadWord).map (fun q => .present (.read q)) ++
        .idle :: [.present (.read 2)]) := by decide

/-- DONE and ERR fall: by CLEAR and by reset. -/
theorem witness_StatusOutputsFallOnlyByClearOrReset :
    doneOut doneState = true ∧ (runWord 0x3000000000000000 doneState).map doneOut = some false ∧
    errOut errState = true ∧ (after (step { errState with inputs := [.raiseRst] })).map errOut = some false := by decide

/-- A running packer, and one held in reset; both have a next state. -/
theorem witness_StepKeepsTheInvariants :
    (Invariant busyState ∧ PortInv busyState ∧ (after (step busyState)).isSome = true) ∧
    (Invariant inResetState ∧ PortInv inResetState ∧ (after (step inResetState)).isSome = true) :=
  ⟨⟨busyState_invariant, by decide⟩, inResetState_invariant, by decide⟩

theorem witness_ResetMeetsTheInvariants : Config.legal ⟨1⟩ ∧ Config.legal ⟨2 ^ 28⟩ := by decide

theorem witness_NoStepStopsUnderTheInvariants : Invariant fill7State := fill7State_invariant

theorem witness_CapacityAndIdNeverChange :
    (after (step { doneState with inputs := [.raiseRst] })).map (·.cfg) = some doneState.cfg ∧
    (runWord 0x3000000000000000 doneState).map cmdReady = some true := by decide

theorem witness_BufferIsWrittenInOrder :
    Invariant openState ∧ Instr.finalize ≠ .clear ∧ (after (exec .finalize openState)).map (·.byteCount) = some 2 :=
  ⟨openState_invariant, by decide⟩

theorem witness_HardwareHoldsTheStream :
    (Invariant openState ∧ openState.done = false) ∧ Invariant doneState ∧ doneState.done = true :=
  ⟨⟨openState_invariant, by decide⟩, doneState_invariant, by decide⟩

/-- A PUSH that succeeds, one that records an error, and CLEAR. -/
theorem witness_StreamIsTheConcatenationOfPushes :
    Invariant openState ∧ (after (exec (.push 4 5) openState)).map (·.err) = some false ∧
    (after (exec (.push 5 5) openState)).map (·.err) = some true ∧ (after (exec .clear openState)).isSome = true :=
  ⟨openState_invariant, by decide⟩

/-- "0" and "101" against "0101" in one PUSH, and in four of one bit each. -/
theorem witness_ConcatenationLaw :
    Invariant openState ∧ openState.err = false ∧ openState.done = false ∧
    (1 ≤ (1 : BitVec 6).toNat ∧ (4 : BitVec 6).toNat = (1 : BitVec 6).toNat + (3 : BitVec 6).toNat ∧
      pushBits 4 0b0101 = pushBits 1 0 ++ pushBits 3 0b101 ∧
      ceilDiv8 (openState.totalBits.toNat + (4 : BitVec 6).toNat) ≤ openState.cfg.bufBytes) ∧
    AllLegal [(1, 0), (3, 0b101)] ∧ AllLegal [(1, 0), (1, 1), (1, 0), (1, 1)] ∧
    streamOf [(1, 0), (3, 0b101)] = streamOf [(1, 0), (1, 1), (1, 0), (1, 1)] ∧
    ceilDiv8 (openState.totalBits.toNat + (streamOf [(1, 0), (3, 0b101)]).length) ≤ openState.cfg.bufBytes :=
  ⟨openState_invariant, by and_intros <;> first | exact allLegal_of_all (by decide) | (simp; done) | decide⟩

/-- No PUSH at all, and PUSH commands that fill the buffer exactly. -/
theorem witness_PackerRefinesThePackContract :
    Invariant errState ∧ AllLegal [] ∧ (streamOf []).length ≤ 8 * errState.cfg.bufBytes ∧
    AllLegal [(15, 0x7FFF), (1, 0)] ∧ (streamOf [(15, 0x7FFF), (1, 0)]).length = 8 * errState.cfg.bufBytes :=
  ⟨errState_invariant, by and_intros <;> first | exact allLegal_of_all (by decide) | (simp; done) | decide⟩

theorem witness_StreamBitsAreStoredHighestFirst :
    Invariant doneState ∧ AllLegal [(11, 0x5A3)] ∧ (streamOf [(11, 0x5A3)]).length ≤ 8 * doneState.cfg.bufBytes :=
  ⟨doneState_invariant, by and_intros <;> first | exact allLegal_of_all (by decide) | (simp; done) | decide⟩

theorem witness_ShortCodesDoNotExpand :
    Invariant openState ∧ AllLegal [(8, 0xA5), (1, 1)] ∧ (∀ p ∈ ([(8, 0xA5), (1, 1)] : List (BitVec 6 × Word)), p.1.toNat ≤ 8) ∧
    (streamOf [(8, 0xA5), (1, 1)]).length ≤ 8 * openState.cfg.bufBytes :=
  ⟨openState_invariant, by and_intros <;> first | exact allLegal_of_all (by decide) | (simp; done) | decide⟩

/-- NOPs between PUSH commands that fill the buffer, with and without a FINALIZE. -/
theorem witness_WellFormedUseRecordsNoError :
    Invariant errState ∧
    (∀ c ∈ ([none, some (15, 0x7FFF), none, some (1, 0)] : List (Option (BitVec 6 × Word))), ∀ p, c = some p → lenLegal p.1) ∧
    (streamOf (([none, some (15, 0x7FFF), none, some (1, 0)] : List (Option (BitVec 6 × Word))).filterMap id)).length =
      8 * errState.cfg.bufBytes ∧ Invariant clearedState ∧ AtReset clearedState ∧ errState.cfg = clearedState.cfg :=
  ⟨errState_invariant, by
    simp only [List.mem_cons, List.not_mem_nil, or_false]
    rintro _ (rfl | rfl | rfl | rfl) p h <;> cases h <;> decide, by decide, clearedState_invariant, by decide⟩

/-- CLEAR, FINALIZE, PUSH uses only OP 0x0 to 0x3, one legal length, one FINALIZE and one bit, and records E_DONE: R169's words
without R196's order (log 12). -/
theorem test_r169_needs_the_order_of_r196 :
    (after (execAll [.clear, .finalize, .push 1 0] openState)).map (·.errCode) = some 3 := by decide

/-- Two buffers that differ only at an index ≥ BYTE_COUNT. -/
theorem witness_StaleBytesCannotBeObserved :
    Invariant openState ∧ Invariant { openState with buf := [(0, 0xAB), (1, 0x77)] } ∧
    Indistinguishable openState { openState with buf := [(0, 0xAB), (1, 0x77)] } :=
  ⟨openState_invariant,
    ⟨by decide, by decide, by decide, by decide, by decide, by decide, (fun h => by cases h), by decide, by decide, by decide,
      by decide, by decide, by decide⟩, rfl, by decide⟩

theorem witness_RunFromClearDependsOnCommandsAlone :
    Invariant openState ∧ Invariant doneState ∧ openState.cfg = doneState.cfg ∧ cmdReady openState = true ∧
    cmdReady doneState = true ∧ Invariant clearedState ∧ AtReset clearedState ∧ AtReset { clearedState with buf := [] } :=
  ⟨openState_invariant, doneState_invariant, by decide, by decide, by decide, clearedState_invariant, by decide⟩

/-- PUSH lines at both ends of what is accepted, and one of each that is refused. -/
theorem witness_AssemblerEmitsTheSpecsWords :
    (1 ≤ 1 ∧ 1 ≤ 32 ∧ 0 < 2 ^ 1) ∧ (1 ≤ 32 ∧ 32 ≤ 32 ∧ 0xFFFFFFFF < 2 ^ 32) ∧ 32 < 33 ∧ 2 ^ 4 ≤ 16 := by decide

theorem witness_PseudoInstructionsExpandFaithfully :
    [true, false, true, true] ≠ [] ∧ Invariant openState ∧ openState.err = false ∧ openState.done = false ∧
    ceilDiv8 (openState.totalBits.toNat + [true, false, true, true].length) ≤ openState.cfg.bufBytes ∧ 255 ≤ 255 :=
  ⟨by decide, openState_invariant, by decide⟩

end Sys2Proof.Tests
end

section
/-! SUPPORT. Proofs of the statements of 00_scope.md. The invariants over a step (O37): a turn that runs an instruction keeps the
registers at reset when the pin holds the packer there, because only reads run then; a turn that settles resets the packer or
moves only the pins. The `pack` contract (O45): the run is `clear_run` and then the flush, and bytes with the bits of `pack`
are `pack`'s bytes. -/

namespace Sys2Proof.Machine

/-! ### The invariants over a step -/

/-- The register clauses of reset survive a read (R60). -/
theorem AtReset.exec_read {s u : State} {q : ReadWord} (h : AtReset s) (hu : exec (decodeRead q) s = .next u) :
    AtReset u := by
  have hs : ∀ v, AtReset (sampleRead v s) := fun v => by simpa [AtReset] using h
  obtain ⟨x, hx⟩ | ⟨x, hx⟩ := decodeRead_isRead q
  · rw [hx] at hu; cases hu; exact hs _
  · rw [hx] at hu; cases hu; exact hs _

/-- Reset writes every register its reset value (R191). -/
theorem resetPacker_atReset (s : State) : AtReset (resetPacker s) := by simp [AtReset]

/-- A turn that runs an instruction starts it in a state that meets the invariant. -/
theorem Invariant.nextTurn_run {s s' : State} {i : Instr} (h : Invariant s) (hn : nextTurn s = .run i s') :
    Invariant s' := by
  rw [(Machine.nextTurn_run hn).1]
  exact h.of_ports s'.inFlight s'.inputs s.rst s.rdData s.draws

/-- While rst = 1 the only instruction a turn runs is a read, so the packer stays reset (R190 to R192). -/
theorem portInv_of_run {s s' u : State} {i : Instr} (h : PortInv s) (hn : nextTurn s = .run i s')
    (hu : exec i s' = .next u) : PortInv u := by
  intro hrst
  obtain ⟨-, hfl, hpin, -⟩ := exec_ports hu
  obtain ⟨hs', ⟨q, rfl, hfl'⟩ | ⟨hlow, -⟩⟩ := nextTurn_run hn
  · have hs : s.rst = true := by rw [← hrst, hpin, hs']
    obtain ⟨hreg, hnone⟩ := h hs
    have hreg' : AtReset s' := by rw [hs']; exact hreg
    exact ⟨hreg'.exec_read hu, by rw [hfl, hfl', hnone]⟩
  · have : u.rst = s.rst := by rw [hpin, hs']
    simp [hrst, hlow] at this

/-- A turn that settles keeps the invariants: it resets the packer, or it moves only the pins (R178, R190). -/
theorem Invariant.nextTurn_settle {s t : State} (h : Invariant s) (hp : PortInv s) (hn : nextTurn s = .settle t) :
    Invariant t ∧ PortInv t := by
  obtain ⟨-, ht⟩ | ⟨ht, hup⟩ := Machine.nextTurn_settle hn
  · rw [ht]
    exact ⟨h.resetPacker.of_ports none t.inputs true s.rdData s.draws, fun _ => ⟨resetPacker_atReset s, rfl⟩⟩
  · refine ⟨?_, fun hrst => ?_⟩
    · rw [ht]
      exact h.of_ports t.inFlight t.inputs t.rst s.rdData s.draws
    · obtain ⟨hs, hfl⟩ := hup hrst
      obtain ⟨hreg, hnone⟩ := hp hs
      exact ⟨by rw [ht]; exact hreg, by rw [hfl, hnone]⟩

/-- Settles O37: a step runs one instruction, which keeps the invariant, or settles. -/
theorem stepKeepsTheInvariants : Obligations.StepKeepsTheInvariants := by
  unfold Obligations.StepKeepsTheInvariants
  intro s t h hp hst
  obtain ⟨i, s', hn, he⟩ | ⟨s', hn, he⟩ := step_cases s
  · rw [he] at hst
    obtain ⟨u, hu, hinv⟩ := (h.nextTurn_run hn).exec i
    obtain rfl : u = t := by rw [hst] at hu; cases hu; rfl
    exact ⟨hinv, portInv_of_run hp hn hst⟩
  · rw [he] at hst; cases hst
    exact h.nextTurn_settle hp hn

/-! ### The `pack` contract -/

/-- A run goes on from where its first part ends. -/
theorem execAll_append_of_next {is : List Instr} {s t : State} (h : execAll is s = .next t) (js : List Instr) :
    execAll (is ++ js) s = execAll js t := by
  rw [execAll_append, h]

/-- A run of one instruction that completes. -/
theorem execAll_singleton_of_next {i : Instr} {s t : State} (h : exec i s = .next t) : execAll [i] s = .next t := by
  rw [execAll, h]; rfl

/-- The bits of `pack`'s bytes are the stream and the padding zeros that `pack` counts (R2). -/
theorem bitsOfBytes_pack (s : List Bool) : bitsOfBytes (pack s).1 = s ++ List.replicate (pack s).2 false :=
  packBytes_bits s.length s (Nat.le_refl _)

/-- The flush leaves `pack` of the open stream: its padding count and, the bits being the same, its bytes (R2, R106). -/
theorem Invariant.flush_pack {s u : State} (h : Invariant s) (hd : s.done = false) (hu : Machine.flush s = .next u) :
    u.packedBytes = (pack s.stream).1 ∧ u.padding.toNat = (pack s.stream).2 := by
  have hpad : u.padding.toNat = (pack s.stream).2 := by
    obtain ⟨u', hu', -, -, -, hP, -⟩ := h.flush hd
    rw [hu] at hu'; cases hu'
    have hcnt := h.open_count hd
    have hfill := s.fill.isLt
    rw [hP, pack, stream_length h]
    omega
  refine ⟨bytes_inj _ _ ?_, hpad⟩
  rw [bitsOfBytes_pack, ← hpad]
  exact (h.flush_stream hd hu).2

/-- Settles O45: CLEAR and the PUSH commands leave the stream open as `streamOf ps`, and the flush packs it. -/
theorem packerRefinesThePackContract : Obligations.PackerRefinesThePackContract := by
  unfold Obligations.PackerRefinesThePackContract
  intro s ps h hl hfit
  obtain ⟨t, ht, hinv, hstream, herr, hdone, hcfg, hbits⟩ := clear_run h ps hl hfit
  obtain ⟨u, hu, -, hframe, hcount, -⟩ := hinv.flush hdone
  obtain ⟨hbytes, hpad⟩ := hinv.flush_pack hdone hu
  rw [hstream] at hbytes hpad
  have hrun : execAll (.clear :: (pushes ps ++ [.finalize])) s = .next u :=
    (execAll_append_of_next ht [.finalize]).trans (execAll_singleton_of_next ((exec_fin_ok herr hdone).trans hu))
  refine ⟨u, hrun, hbytes, hpad, ?_, ?_, ?_, ?_, ?_⟩
  · rw [hcount, hbits, ceilDiv8]
  · rw [hframe]; exact hbits
  · rw [hframe]
  · rw [hframe]; exact herr
  · rw [hframe]; exact hcfg

end Sys2Proof.Machine
end

section
/-! SUPPORT. Proofs of the statements of 10_state.md. What an instruction can have done is `exec_inv`, case by case: the writers of
the flags (O23), the frame (O24) and the stream (O43) are read off it. Two states that differ only in stale bytes (O49) are `s` and
`{ s with buf := m }`, whose guards are the same, so `BothNext` goes through `exec` branch by branch; the one thing to show is that a
loop of BufWrites keeps two buffers alike below its end. -/

namespace Sys2Proof.Machine

/-! ### Progress, reset and the constants -/

/-- Settles O39: the instruction a step runs completes under the invariant, and a turn that settles is a next state. -/
theorem noStepStopsUnderTheInvariants : Obligations.NoStepStopsUnderTheInvariants := by
  unfold Obligations.NoStepStopsUnderTheInvariants
  intro s h
  obtain ⟨i, s', hn, he⟩ | ⟨s', -, he⟩ := step_cases s
  · obtain ⟨u, hu, -⟩ := (h.nextTurn_run hn).exec i
    exact ⟨u, he.trans hu⟩
  · exact ⟨s', he⟩

/-- After reset every register holds its reset value (R46). -/
theorem resetWith_atReset (cfg : Config) : AtReset (State.resetWith cfg) := by simp [AtReset, State.resetWith]

/-- CLEAR writes every register its reset value (R122). -/
theorem clearStream_atReset (s : State) : AtReset (clearStream s) := by simp [AtReset]

/-- Registers at reset hold an open, empty stream, so only the parameter and the buffer's form are left to ask (R46). -/
theorem AtReset.invariant {s : State} (h : AtReset s) (hc : s.cfg.legal) (hwf : Memory.wf s.buf)
    (hr : ∀ c ∈ s.buf, c.1 < s.cfg.bufBytes) : Invariant s := by
  obtain ⟨hfill, hpart, hcount, htotal, hpad, hdone, herr, hcode⟩ := h
  refine ⟨hc, ?_, ?_, ?_, ?_, ?_, ?_, ?_, ?_, ?_, hwf, ?_, hr⟩ <;> simp [*, ceilDiv8]

/-- Settles O38: the registers after reset are at their reset values, nothing has been written, and rst = 0. -/
theorem resetMeetsTheInvariants : Obligations.ResetMeetsTheInvariants := by
  unfold Obligations.ResetMeetsTheInvariants
  have hall : ∀ cfg : Config, cfg.legal → Invariant (State.resetWith cfg) ∧ PortInv (State.resetWith cfg) :=
    fun cfg hc => ⟨(resetWith_atReset cfg).invariant hc List.Pairwise.nil (by simp [State.resetWith]),
      fun _ => ⟨resetWith_atReset cfg, rfl⟩⟩
  exact ⟨hall, hall ⟨16⟩ (by decide)⟩

/-- Index 0x0 reads ID (R33). -/
@[simp] theorem registerValue_id (s : State) : registerValue 0x0 s = 0x42500001 := rfl

/-- Index 0x7 reads CAPACITY (R32). -/
@[simp] theorem registerValue_capacity (s : State) : registerValue 0x7 s = BitVec.ofNat 32 s.cfg.bufBytes := rfl

/-- Settles O31: the named updates' registers, and ID and CAPACITY read from the parameter alone. -/
theorem resetAndClearValues : Obligations.ResetAndClearValues := by
  unfold Obligations.ResetAndClearValues
  refine ⟨fun cfg => ⟨resetWith_atReset cfg, rfl, registerValue_id _, registerValue_capacity _⟩, resetWith_atReset _, rfl,
    fun s => ⟨clearStream s, rfl, clearStream_atReset s, ?_, ?_⟩⟩
  · rw [registerValue_id, registerValue_id]
  · rw [registerValue_capacity, registerValue_capacity, clearStream_cfg]

/-- No step changes the parameter (R8, R32). -/
theorem step_cfg {s t : State} (h : step s = .next t) : t.cfg = s.cfg := by
  obtain ⟨i, s', hn, he⟩ | ⟨s', hn, he⟩ := step_cases s
  · obtain ⟨hcfg, -⟩ := exec_ports (he ▸ h)
    rw [hcfg, (nextTurn_run hn).1]
  · rw [he] at h; cases h
    obtain ⟨-, ht⟩ | ⟨ht, -⟩ := nextTurn_settle hn
    · rw [ht]; exact resetPacker_cfg s
    · rw [ht]

/-- READ_REG while cmd_ready = 1 samples the register (R130). -/
theorem exec_readReg_ready {s : State} (h : cmdReady s = true) (i : Word) :
    exec (.readReg i) s = .next { s with rdData := registerValue i s } := by
  rw [exec_readReg, execReadReg, sampleRead_ready _ _ h]

/-- Settles O40: `step_cfg`, and a ready read of index 0x7 or 0x0 samples a value that depends on the parameter alone. -/
theorem capacityAndIdNeverChange : Obligations.CapacityAndIdNeverChange := by
  unfold Obligations.CapacityAndIdNeverChange
  intro s t h
  have hcfg := step_cfg h
  refine ⟨hcfg, fun hr => ⟨?_, ?_⟩⟩
  · rw [exec_readReg_ready hr, registerValue_capacity, hcfg]
  · rw [exec_readReg_ready hr, registerValue_id]

/-! ### Who writes what -/

/-- Settles O23: each of the ways `exec_inv` lists writes only the flags of its own command. -/
theorem flagsHaveOnlyTheirWriters : Obligations.FlagsHaveOnlyTheirWriters := by
  unfold Obligations.FlagsHaveOnlyTheirWriters
  intro i s u h
  obtain ⟨c, herr, rfl, hi⟩ | ⟨-, rfl, -⟩ | ⟨-, rfl⟩ | ⟨rfl, rfl⟩ | ⟨v, rfl, -⟩ | ⟨-, -, rfl, hf⟩ |
    ⟨-, -, l, d, rfl, -, -, ha⟩ := exec_inv h
  · refine ⟨by simp, fun _ => .inr ⟨rfl, rfl⟩, fun _ => .inr ⟨herr, rfl⟩, by simp, ?_⟩
    rintro (rfl | ⟨x, rfl⟩ | ⟨x, rfl⟩) <;> simp at hi
  · simp
  · simp
  · simp
  · exact ⟨by simp, by simp, by simp, by simp, fun _ => sampleRead_frame v s⟩
  · rw [flush_frame hf]; simp
  · rw [append_frame ha]; simp

/-- What the host has sampled and the count of free values change only by taking a read (R60, R200). -/
theorem exec_samples {i : Instr} {s u : State} (h : exec i s = .next u) :
    (u.rdData = s.rdData ∧ u.draws = s.draws) ∨
      (((∃ x, i = .readReg x) ∨ ∃ x, i = .readBuf x) ∧ ∃ v, u = sampleRead v s) := by
  obtain ⟨c, -, rfl, -⟩ | ⟨-, rfl, -⟩ | ⟨-, rfl⟩ | ⟨-, rfl⟩ | ⟨v, rfl, hi⟩ | ⟨-, -, -, hf⟩ |
    ⟨-, -, l, d, -, -, -, ha⟩ := exec_inv h
  · exact .inl ⟨rfl, rfl⟩
  · exact .inl ⟨rfl, rfl⟩
  · exact .inl ⟨rfl, rfl⟩
  · exact .inl ⟨rfl, rfl⟩
  · exact .inr ⟨hi.imp (fun ⟨x, hx, _⟩ => ⟨x, hx⟩) (fun ⟨x, hx, _⟩ => ⟨x, hx⟩), v, rfl⟩
  · rw [flush_frame hf]; exact .inl ⟨rfl, rfl⟩
  · rw [append_frame ha]; exact .inl ⟨rfl, rfl⟩

/-- A free value is drawn only while cmd_ready = 0, and one at a time (R200). -/
theorem sampleRead_draws_ne {v : Word} {s : State} (h : (sampleRead v s).draws ≠ s.draws) :
    cmdReady s = false ∧ (sampleRead v s).draws = s.draws + 1 := by
  cases hr : cmdReady s with
  | true => rw [sampleRead_ready v s hr] at h; exact absurd rfl h
  | false => rw [sampleRead_hazard v s hr]; exact ⟨rfl, rfl⟩

/-- Only FINALIZE and PUSH write the buffer (R31, R52). -/
theorem exec_buf {i : Instr} {s u : State} (h : exec i s = .next u) :
    u.buf = s.buf ∨ i = .finalize ∨ ∃ len data, i = .push len data := by
  obtain ⟨c, -, rfl, -⟩ | ⟨-, rfl, -⟩ | ⟨-, rfl⟩ | ⟨-, rfl⟩ | ⟨v, rfl, -⟩ | ⟨-, -, hi, -⟩ |
    ⟨-, -, l, d, hi, -⟩ := exec_inv h
  · exact .inl rfl
  · exact .inl rfl
  · exact .inl rfl
  · exact .inl rfl
  · exact .inl (sampleRead_buf v s)
  · exact .inr (.inl hi)
  · exact .inr (.inr ⟨l, d, hi⟩)

/-- Settles O24: `exec_ports` for the ports, `exec_samples` for the model's own fields, `exec_buf` for the buffer. -/
theorem instructionsLeavePortsAlone : Obligations.InstructionsLeavePortsAlone := by
  unfold Obligations.InstructionsLeavePortsAlone
  intro i s u h
  obtain ⟨hcfg, hfl, hrst, hin⟩ := exec_ports h
  refine ⟨hcfg, hfl, hrst, hin, fun hn => ?_, fun hn => ?_, fun hn => (exec_buf h).resolve_left hn⟩
  · obtain ⟨hrd, -⟩ | ⟨hread, -⟩ := exec_samples h
    · exact absurd hrd hn
    · exact hread
  · obtain ⟨-, hdraws⟩ | ⟨hread, v, rfl⟩ := exec_samples h
    · exact absurd hdraws hn
    · obtain ⟨hready, hone⟩ := sampleRead_draws_ne hn
      exact ⟨hready, hone, hread⟩

/-! ### The stream -/

@[simp] theorem recordError_stream (c : ErrorCode) (s : State) : (recordError c s).stream = s.stream := rfl

@[simp] theorem sampleRead_stream (v : Word) (s : State) : (sampleRead v s).stream = s.stream := by
  rw [sampleRead_frame]; rfl

@[simp] theorem clearStream_stream (s : State) : (clearStream s).stream = [] := by simp [State.stream]

/-- Settles O43: the shifter appends (`Invariant.append_stream`), CLEAR empties, the flush keeps (`Invariant.flush_stream`), and
nothing else writes a register the stream is read from. -/
theorem streamIsTheConcatenationOfPushes : Obligations.StreamIsTheConcatenationOfPushes := by
  unfold Obligations.StreamIsTheConcatenationOfPushes
  intro i s u h hu
  obtain ⟨c, -, rfl, hi⟩ | ⟨herr, rfl, hi⟩ | ⟨rfl, rfl⟩ | ⟨rfl, rfl⟩ | ⟨v, rfl, hi⟩ | ⟨-, hd, rfl, hf⟩ |
    ⟨herr, hd, l, d, rfl, -, hc, ha⟩ := exec_inv hu
  · obtain ⟨-, ⟨op, rfl⟩ | ⟨op, rfl⟩⟩ | ⟨-, -, rfl | ⟨l, d, rfl⟩⟩ | ⟨-, -, l, d, rfl, -⟩ | ⟨-, -, l, d, rfl, -⟩ := hi <;> simp
  · obtain rfl | ⟨l, d, rfl⟩ | ⟨op, rfl⟩ | ⟨op, rfl⟩ := hi <;> simp [herr]
  · rfl
  · exact clearStream_stream s
  · obtain ⟨x, rfl, -⟩ | ⟨x, rfl, -⟩ := hi <;> simp
  · exact (h.flush_stream hd hf).1
  · have hok : u.err = false := by rw [append_frame ha]; exact herr
    simpa [hok] using h.append_stream hd hc ha

/-- A number whose low k digits are zero ends in k zeros (R14). -/
theorem bitsOf_drop_of_aligned {n k v : Nat} (h : k ≤ n) (hv : v % 2 ^ k = 0) :
    (bitsOf n v).drop (n - k) = List.replicate k false := by
  have hsplit := bitsOf_add (n - k) k v
  rw [Nat.sub_add_cancel h] at hsplit
  rw [hsplit, List.drop_left' (bitsOf_length ..), ← bitsOf_mod, hv, bitsOf_eq_map]
  simp

/-- The packed bytes are the last one and those before it. -/
theorem packedBytes_succ {s : State} {k : Nat} (h : s.byteCount.toNat = k + 1) :
    s.packedBytes = ((List.range k).map fun i => bufRead i s) ++ [bufRead k s] := by
  rw [State.packedBytes, h, List.range_succ, List.map_append]; rfl

/-- Once finalized, PART holds no stream bits (R43). -/
theorem Invariant.closed_part {s : State} (h : Invariant s) (hd : s.done = true) : s.part = 0 ∧ s.partialBits = [] := by
  have halign := h.part_aligned
  rw [h.closed_fill hd] at halign
  exact ⟨BitVec.eq_of_toNat_eq ((Nat.mod_eq_of_lt s.part.isLt).symm.trans halign),
    by rw [State.partialBits, h.closed_fill hd]; rfl⟩

/-- Once finalized, the bytes' bits from TOTAL_BITS on are the PADDING zeros of the last byte (R43). -/
theorem Invariant.closed_padding {s : State} (h : Invariant s) (hd : s.done = true) :
    (bitsOfBytes s.packedBytes).drop s.totalBits.toNat = List.replicate s.padding.toNat false := by
  have hcount := h.closed_count hd
  have hlt := s.padding.isLt
  match hk : s.byteCount.toNat with
  | 0 =>
    rw [show s.padding.toNat = 0 by omega, List.drop_of_length_le (by simp [State.packedBytes_length, hk])]
    rfl
  | k + 1 =>
    obtain ⟨b, hb⟩ := Option.isSome_iff_exists.1 (h.buf_written k (by omega))
    have hzero : b.toNat % 2 ^ s.padding.toNat = 0 := h.closed_zero hd b (by rw [hk]; exact hb)
    rw [packedBytes_succ hk, bitsOfBytes_append, bufRead_of_some hb,
      show s.totalBits.toNat = 8 * k + (8 - s.padding.toNat) by omega, ← List.drop_drop,
      List.drop_left' (by simp), bitsOfBytes_cons, bitsOfBytes_nil, List.append_nil]
    exact bitsOf_drop_of_aligned (by omega) hzero

/-- Settles O42: `stream_length` and `Invariant.open_stream` while open; once finalized the bytes' bits are cut at TOTAL_BITS. -/
theorem hardwareHoldsTheStream : Obligations.HardwareHoldsTheStream := by
  unfold Obligations.HardwareHoldsTheStream
  intro s h
  refine ⟨stream_length h, fun hd => ⟨h.open_stream hd, (stream_length h).trans (h.open_count hd)⟩, fun hd => ?_⟩
  obtain ⟨hpart, hbits⟩ := h.closed_part hd
  have hcount := h.closed_count hd
  have hlt := s.padding.isLt
  refine ⟨h.closed_fill hd, hpart, by omega, by omega, ?_⟩
  rw [State.stream, hbits, List.append_nil, ← h.closed_padding hd, List.take_append_drop]

/-! ### Stale bytes -/

/-- Two buffers that read alike below `n`. -/
def Memory.AgreeBelow (n : Nat) (m m' : Memory) : Prop := ∀ i < n, Memory.read i m' = Memory.read i m

/-- Writing the same byte at the end of where two buffers agree, they agree one further. -/
theorem Memory.AgreeBelow.write {n : Nat} {m m' : Memory} (h : AgreeBelow n m m') (b : Byte) :
    AgreeBelow (n + 1) (Memory.write n b m) (Memory.write n b m') := by
  intro i hi
  rw [Memory.read_write, Memory.read_write]
  split
  · rfl
  · exact h i (by omega)

/-- … and so over a loop of BufWrites (R101). -/
theorem Memory.AgreeBelow.bufWriteAll {cap : Nat} {bs : List Byte} :
    ∀ {n : Nat} {m m' w w' : Memory}, AgreeBelow n m m' → bufWriteAll cap n bs m = some w →
      bufWriteAll cap n bs m' = some w' → AgreeBelow (n + bs.length) w w' := by
  induction bs with
  | nil => rintro n m m' w w' h ⟨⟩ ⟨⟩; exact h
  | cons b bs ih =>
    intro n m m' w w' h hw hw'
    by_cases hn : n < cap
    · simp only [Machine.bufWriteAll, bufWrite, if_pos hn] at hw hw'
      rw [List.length_cons, Nat.add_comm bs.length, ← Nat.add_assoc]
      exact ih (h.write b) hw hw'
    · simp [Machine.bufWriteAll, bufWrite, hn] at hw

/-- States that differ only in their buffers are indistinguishable exactly when the buffers agree below BYTE_COUNT. -/
theorem indistinguishable_withBuf {s : State} {m : Memory} :
    Indistinguishable s { s with buf := m } ↔ Memory.AgreeBelow s.byteCount.toNat s.buf m :=
  ⟨fun h => h.2, fun h => ⟨rfl, h⟩⟩

theorem BothNext.next {R : State → State → Prop} {s t : State} (h : R s t) : BothNext R (.next s) (.next t) :=
  ⟨s, t, rfl, rfl, h⟩

/-- Two outcomes under one guard are related if they are in each branch. -/
theorem BothNext.ite {R : State → State → Prop} {c : Prop} [Decidable c] {a a' b b' : Result}
    (hpos : c → BothNext R a b) (hneg : ¬ c → BothNext R a' b') :
    BothNext R (if c then a else a') (if c then b else b') := by
  split
  · exact hpos ‹_›
  · exact hneg ‹_›

/-- Two turns alike but for stale bytes: one instruction run from states with buffers that agree below BYTE_COUNT, or settling in
indistinguishable states. -/
inductive TurnsAlike (m : Memory) : Turn → Turn → Prop where
  | run {i : Instr} {s : State} (h : Memory.AgreeBelow s.byteCount.toNat s.buf m) :
    TurnsAlike m (.run i s) (.run i { s with buf := m })
  | settle {s t : State} (h : Indistinguishable s t) : TurnsAlike m (.settle s) (.settle t)

section Stale

variable {s : State} {m : Memory}

/-- Reset empties the buffer, so it leaves no trace of a stale byte (R191). -/
theorem resetPacker_stale : Indistinguishable (resetPacker s) (resetPacker { s with buf := m }) :=
  ⟨rfl, fun _ _ => rfl⟩

variable (h : Memory.AgreeBelow s.byteCount.toNat s.buf m)
include h

/-- READ_BUF's value does not show a stale byte (R132). -/
theorem bufferValue_stale (i : Word) : bufferValue i { s with buf := m } = bufferValue i s := by
  simp only [bufferValue]
  split
  · rw [bufRead_congr (h _ ‹_›)]
  · rfl

theorem sampleRead_stale (v : Word) : Indistinguishable (sampleRead v s) (sampleRead v { s with buf := m }) := by
  cases hr : cmdReady s with
  | true => rw [sampleRead_ready v s hr, sampleRead_ready v { s with buf := m } hr]; exact ⟨rfl, h⟩
  | false => rw [sampleRead_hazard v s hr, sampleRead_hazard v { s with buf := m } hr]; exact ⟨rfl, h⟩

theorem raiseError_stale (c : ErrorCode) :
    BothNext Indistinguishable (raiseError c s) (raiseError c { s with buf := m }) :=
  .next ⟨rfl, h⟩

theorem unlessErr_stale {a b : Result} (hab : BothNext Indistinguishable a b) :
    BothNext Indistinguishable (unlessErr s a) (unlessErr { s with buf := m } b) :=
  .ite (fun _ => .next (indistinguishable_withBuf.2 h)) fun _ => hab

/-- The barrel shifter joins the same bits and writes the same bytes from BYTE_COUNT on (R101). -/
theorem appendBits_stale {n code : Nat} (hroom : s.byteCount.toNat + (s.fill.toNat + n) / 8 ≤ s.cfg.bufBytes) :
    BothNext Indistinguishable (appendBits n code s) (appendBits n code { s with buf := m }) := by
  obtain ⟨w, hw, hs⟩ := appendBits_room (code := code) hroom
  obtain ⟨w', hw', ht⟩ := appendBits_room (code := code) (s := { s with buf := m }) hroom
  have hagree := h.bufWriteAll hw hw'
  rw [wholeBytes_length] at hagree
  rw [hs, ht]
  refine .next ⟨rfl, fun i hi => hagree i (Nat.lt_of_lt_of_le hi ?_)⟩
  rw [advance_byteCount, BitVec.toNat_ofNat]
  exact Nat.mod_le ..

/-- The flush writes the same partial byte at BYTE_COUNT (R106). -/
theorem flush_stale (hroom : s.fill ≠ 0 → s.byteCount.toNat < s.cfg.bufBytes) :
    BothNext Indistinguishable (flush s) (flush { s with buf := m }) := by
  refine .ite (fun _ => .next ⟨rfl, h⟩) fun hf => ?_
  simp only [bufWrite, if_pos (hroom hf)]
  refine .next ⟨rfl, fun i hi => h.write s.part i (Nat.lt_of_lt_of_le hi ?_)⟩
  rw [closeStream_byteCount, BitVec.toNat_ofNat]
  exact Nat.mod_le ..

/-- No instruction tells two states with buffers that agree below BYTE_COUNT apart. -/
theorem exec_stale (hs : Invariant s) (i : Instr) :
    BothNext Indistinguishable (exec i s) (exec i { s with buf := m }) := by
  cases i with
  | nop => exact .next (indistinguishable_withBuf.2 h)
  | push len data =>
    exact unlessErr_stale h <|
      .ite (fun _ => raiseError_stale h .done) fun hd =>
      .ite (fun _ => raiseError_stale h .len) fun _ =>
      .ite (fun _ => raiseError_stale h .ovf) fun hc =>
      appendBits_stale h (hs.room (Bool.eq_false_iff.2 hd) (Nat.le_of_not_lt hc))
  | finalize =>
    exact unlessErr_stale h <|
      .ite (fun _ => raiseError_stale h .done) fun hd =>
      flush_stale h (hs.fill_pos_room (Bool.eq_false_iff.2 hd))
  | clear => exact .next ⟨rfl, by simp⟩
  | reserved47 op => exact unlessErr_stale h (raiseError_stale h .op)
  | reserved8F op => exact unlessErr_stale h (raiseError_stale h .op)
  | readReg x => exact .next (sampleRead_stale h (registerValue x s))
  | readBuf x =>
    rw [exec_readBuf, exec_readBuf, execReadBuf, execReadBuf, bufferValue_stale h]
    exact .next (sampleRead_stale h (bufferValue x s))

theorem idleTurn_stale : TurnsAlike m (idleTurn s) (idleTurn { s with buf := m }) := by
  simp only [idleTurn]
  split
  · exact .settle resetPacker_stale
  · split
    · exact .run h
    · exact .settle ⟨rfl, h⟩

theorem commandTurn_stale (w : CommandWord) (rest : List HostAction) :
    TurnsAlike m (commandTurn w rest s) (commandTurn w rest { s with buf := m }) := by
  simp only [commandTurn]
  split
  · exact .settle (resetPacker_stale (s := { s with inputs := rest }))
  · split
    · exact .run h
    · exact .run (s := { s with inputs := rest }) h

theorem offerTurn_stale (w : CommandWord) : TurnsAlike m (offerTurn w s) (offerTurn w { s with buf := m }) := by
  simp only [offerTurn]
  split
  · exact .settle resetPacker_stale
  · split
    · exact .settle ⟨rfl, h⟩
    · exact .settle ⟨rfl, h⟩

/-- What the next step does is decided by the pins, not by the buffer (R70). -/
theorem nextTurn_stale : TurnsAlike m (nextTurn s) (nextTurn { s with buf := m }) := by
  simp only [nextTurn]
  split
  next => exact idleTurn_stale h
  next w rest _ => exact commandTurn_stale h w rest
  next q rest _ => exact .run (s := { s with inputs := rest }) h
  next w rest _ => exact offerTurn_stale (s := { s with inputs := rest }) h w
  next rest _ => exact idleTurn_stale (s := { s with inputs := rest }) h
  next rest _ => exact .settle (resetPacker_stale (s := { s with inputs := rest, rst := true }))
  next rest _ => exact .settle ⟨rfl, h⟩

end Stale

/-- Settles O49: the two turns are alike, and an instruction they run does not tell the two states apart. -/
theorem staleBytesCannotBeObserved : Obligations.StaleBytesCannotBeObserved := by
  unfold Obligations.StaleBytesCannotBeObserved
  intro s t hs _ hst
  obtain ⟨ht, hagree⟩ := hst
  rw [ht]
  have halike := nextTurn_stale hagree
  generalize hn : nextTurn s = a, hn' : nextTurn { s with buf := t.buf } = b at halike
  cases halike with
  | run h =>
    rw [step_run hn, step_run hn']
    exact exec_stale h (hs.nextTurn_run hn) _
  | settle h =>
    rw [step_settle hn, step_settle hn']
    exact .next h

end Sys2Proof.Machine
end

section
/-! SUPPORT. Proofs of the statements of 20_memory.md. Bit order (O46): position p of the bits of a list of bytes is bit
7 - (p mod 8) of byte p div 8, and under the invariant every packed byte is one that was written; so before FINALIZE the stream
begins with the bits of the packed bytes, and after it those bits begin with the stream. -/

namespace Sys2Proof.Machine

/-! ### Bit order -/

/-- bits_8 of a byte, position by position, lists it from bit 7 down (R14, R54). -/
theorem bitsOf_byte_getElem? (b : Byte) {p : Nat} (h : p < 8) : (bitsOf 8 b.toNat)[p]? = some (b.getLsbD (7 - p)) := by
  rw [bitsOf_eq_map, List.getElem?_map, List.getElem?_range h]
  rfl

/-- Position p of the bits of bytes is bit 7 - (p mod 8) of byte p div 8 (R54). -/
theorem bitsOfBytes_getElem? (bs : List Byte) (p : Nat) :
    (bitsOfBytes bs)[p]? = bs[p / 8]?.map fun b => b.getLsbD (7 - p % 8) := by
  induction bs generalizing p with
  | nil => simp
  | cons b bs ih =>
    rw [bitsOfBytes_cons]
    by_cases hp : p < 8
    · rw [List.getElem?_append_left (by simpa using hp), bitsOf_byte_getElem? b hp, Nat.div_eq_of_lt hp, Nat.mod_eq_of_lt hp]
      rfl
    · obtain ⟨q, rfl⟩ := Nat.exists_eq_add_of_le' (Nat.le_of_not_lt hp)
      rw [List.getElem?_append_right (by simp), bitsOf_length, Nat.add_sub_cancel, ih, Nat.add_div_right _ (by omega),
        Nat.add_mod_right, List.getElem?_cons_succ]

/-- The eight bits from position 8i on are those of byte i. -/
theorem bitsOfBytes_drop_take {bs : List Byte} {i : Nat} {b : Byte} (h : bs[i]? = some b) :
    ((bitsOfBytes bs).drop (8 * i)).take 8 = bitsOf 8 b.toNat := by
  refine List.ext_getElem? fun j => ?_
  by_cases hj : j < 8
  · rw [List.getElem?_take_of_lt hj, List.getElem?_drop, bitsOfBytes_getElem?, show (8 * i + j) / 8 = i by omega,
      show (8 * i + j) % 8 = j by omega, h, bitsOf_byte_getElem? b hj]
    rfl
  · rw [List.getElem?_take_eq_none (by omega), List.getElem?_eq_none (by rw [bitsOf_length]; omega)]

/-- Under the invariant the packed bytes are bytes that have been written (R25). -/
theorem Invariant.packedBytes_getElem? {s : State} (h : Invariant s) {i : Nat} (hi : i < s.byteCount.toNat) :
    ∃ b, Memory.read i s.buf = some b ∧ s.packedBytes[i]? = some b := by
  obtain ⟨b, hb⟩ := Option.isSome_iff_exists.1 (h.buf_written i hi)
  refine ⟨b, hb, ?_⟩
  rw [State.packedBytes, List.getElem?_map, List.getElem?_range hi, Option.map_some, bufRead_of_some hb]

/-- Position p of the packed bits is bit 7 - (p mod 8) of the byte stored at p div 8 (R54). -/
theorem Invariant.packedBits_getElem? {s : State} (h : Invariant s) {p : Nat} (hp : p < 8 * s.byteCount.toNat) :
    ∃ b, Memory.read (p / 8) s.buf = some b ∧ (bitsOfBytes s.packedBytes)[p]? = some (b.getLsbD (7 - p % 8)) := by
  obtain ⟨b, hb, hpacked⟩ := h.packedBytes_getElem? (i := p / 8) (by omega)
  exact ⟨b, hb, by rw [bitsOfBytes_getElem?, hpacked]; rfl⟩

/-- While the stream is open, bit p of each whole byte is stored so (R42, R54). -/
theorem Invariant.open_bit {s : State} (h : Invariant s) (hd : s.done = false) {p : Nat} (hp : p < 8 * s.byteCount.toNat) :
    ∃ b, Memory.read (p / 8) s.buf = some b ∧ s.stream[p]? = some (b.getLsbD (7 - p % 8)) := by
  obtain ⟨b, hb, hbit⟩ := h.packedBits_getElem? hp
  refine ⟨b, hb, ?_⟩
  rw [h.open_stream hd, List.getElem?_append_left (by simpa [State.packedBytes_length] using hp), hbit]

/-- … and each whole byte is the value of its eight stream bits (R14, R42). -/
theorem Invariant.open_byte {s : State} (h : Invariant s) (hd : s.done = false) {i : Nat} (hi : i < s.byteCount.toNat) :
    ∃ b, Memory.read i s.buf = some b ∧ b.toNat = valOf ((s.stream.drop (8 * i)).take 8) := by
  obtain ⟨b, hb, hpacked⟩ := h.packedBytes_getElem? hi
  have hlen : (bitsOfBytes s.packedBytes).length = 8 * s.byteCount.toNat := by
    rw [bitsOfBytes_length, State.packedBytes_length]
  refine ⟨b, hb, ?_⟩
  rw [h.open_stream hd, List.drop_append_of_le_length (by omega),
    List.take_append_of_le_length (by rw [List.length_drop]; omega), bitsOfBytes_drop_take hpacked, valOf_bitsOf,
    Nat.mod_eq_of_lt b.isLt]

/-- The flush stores every bit of the stream so: behind it come only the padding zeros (R43, R54). -/
theorem Invariant.flush_bit {s v : State} (h : Invariant s) (hd : s.done = false) (hv : Machine.flush s = .next v) {p : Nat}
    (hp : p < s.stream.length) :
    ∃ b, Memory.read (p / 8) v.buf = some b ∧ s.stream[p]? = some (b.getLsbD (7 - p % 8)) := by
  obtain ⟨v', hv', hinv, -⟩ := h.flush hd
  obtain rfl : v' = v := by rw [hv'] at hv; cases hv; rfl
  have hbits := (h.flush_stream hd hv).2
  have hlen : s.stream.length + v'.padding.toNat = 8 * v'.byteCount.toNat := by
    simpa [State.packedBytes_length] using (congrArg List.length hbits).symm
  obtain ⟨b, hb, hbit⟩ := hinv.packedBits_getElem? (p := p) (by omega)
  refine ⟨b, hb, ?_⟩
  rw [← hbit, hbits, List.getElem?_append_left hp]

/-- Settles O46: CLEAR and the PUSH commands leave the stream open as `streamOf ps`; its whole bytes are `Invariant.open_bit` and
`Invariant.open_byte`, and `Invariant.flush_bit` is the whole stream. -/
theorem streamBitsAreStoredHighestFirst : Obligations.StreamBitsAreStoredHighestFirst := by
  unfold Obligations.StreamBitsAreStoredHighestFirst
  intro s ps h hl hfit
  obtain ⟨u, hu, hinv, hstream, herr, hdone, -, hbits⟩ := clear_run h ps hl hfit
  obtain ⟨v, hv, -⟩ := hinv.flush hdone
  have hcount := hinv.open_count hdone
  rw [← hstream]
  refine ⟨u, v, hu, ?_, fun p hp => hinv.open_bit hdone hp, fun i hi => hinv.open_byte hdone hi,
    (exec_fin_ok herr hdone).trans hv, fun p hp => hinv.flush_bit hdone hv hp⟩
  rw [stream_length hinv]
  omega

/-! ### Reads -/

/-- A read samples a value that does not depend on what was sampled before (R60). -/
theorem exec_read {i : Instr} (hi : (∃ x, i = .readReg x) ∨ ∃ x, i = .readBuf x) (s : State) :
    ∃ v, ∀ w, exec i { s with rdData := w } = .next (sampleRead v { s with rdData := w }) := by
  obtain ⟨x, rfl⟩ | ⟨x, rfl⟩ := hi
  · exact ⟨registerValue x s, fun _ => rfl⟩
  · exact ⟨bufferValue x s, fun _ => rfl⟩

/-- What a read leaves alone (R60). -/
theorem exec_read_frame {i : Instr} {s u : State} (hi : (∃ x, i = .readReg x) ∨ ∃ x, i = .readBuf x)
    (hu : exec i s = .next u) : u = { s with rdData := u.rdData, draws := u.draws } := by
  obtain ⟨v, hv⟩ := exec_read hi s
  obtain rfl : sampleRead v s = u := by rw [hv s.rdData] at hu; cases hu; rfl
  exact sampleRead_frame v s

/-- Settles O28: `exec_read` with cmd_ready = 1, `exec_read_frame`, and over a step: what runs is a command or a read, and what
settles resets the packer or moves only the pins. -/
theorem readsAreIdempotentAndOnlyCommandsChangeState : Obligations.ReadsAreIdempotentAndOnlyCommandsChangeState := by
  unfold Obligations.ReadsAreIdempotentAndOnlyCommandsChangeState
  refine ⟨fun s i hr hi => ?_, fun s u i => exec_read_frame, fun s t h => ?_⟩
  · obtain ⟨v, hv⟩ := exec_read hi s
    have hsame : ∀ w, exec i { s with rdData := w } = .next { s with rdData := v } := fun w => by
      rw [hv w, sampleRead_ready v { s with rdData := w } hr]
    exact ⟨v, hsame s.rdData, hsame⟩
  · obtain ⟨i, s', hn, he⟩ | ⟨s', hn, he⟩ := step_cases s
    · obtain ⟨hs', ⟨q, rfl, -⟩ | ⟨-, -, w, rfl⟩⟩ := nextTurn_run hn
      · have ht := exec_read_frame (decodeRead_isRead q) (he.symm.trans h)
        rw [hs'] at ht
        rw [ht]; exact .inr (.inr rfl)
      · exact .inl ⟨w, s', hn⟩
    · rw [he] at h; cases h
      obtain ⟨hrst, -⟩ | ⟨ht, -⟩ := nextTurn_settle hn
      · exact .inr (.inl hrst)
      · rw [ht]; exact .inr (.inr rfl)

/-! ### The order of writes -/

/-- The buffer is only extended: BYTE_COUNT does not fall, and no byte outside the indices it passes over changes (R52). -/
def BufferExtends (s u : State) : Prop :=
  s.byteCount.toNat ≤ u.byteCount.toNat ∧
    ∀ a, a < s.byteCount.toNat ∨ u.byteCount.toNat ≤ a → Memory.read a u.buf = Memory.read a s.buf

/-- What moves neither BYTE_COUNT nor the buffer extends it by nothing. -/
theorem BufferExtends.of_eq {s u : State} (hc : u.byteCount = s.byteCount) (hb : u.buf = s.buf) : BufferExtends s u :=
  ⟨by rw [hc], fun a _ => by rw [hb]⟩

/-- The barrel shifter writes from BYTE_COUNT on (R101). -/
theorem Invariant.append_extends {s u : State} (h : Invariant s) (hd : s.done = false) {n code : Nat}
    (hc : ceilDiv8 (s.totalBits.toNat + n) ≤ s.cfg.bufBytes) (hu : appendBits n code s = .next u) : BufferExtends s u := by
  obtain ⟨u', hu', -, -, -, -, hcount, -, -, hout⟩ := h.append (code := code) hd hc
  rw [hu] at hu'; cases hu'
  exact ⟨by omega, fun a ha => hout a (by omega)⟩

/-- The flush writes at BYTE_COUNT or nowhere (R106). -/
theorem Invariant.flush_extends {s u : State} (h : Invariant s) (hd : s.done = false) (hu : Machine.flush s = .next u) :
    BufferExtends s u := by
  obtain ⟨u', hu', -, -, -, -, hwhole, hpart, hout⟩ := h.flush hd
  rw [hu] at hu'; cases hu'
  by_cases hf : s.fill = 0
  · obtain ⟨hcount, hbuf⟩ := hwhole hf
    exact .of_eq hcount hbuf
  · obtain ⟨hcount, -⟩ := hpart hf
    exact ⟨by omega, fun a ha => hout a (by omega)⟩

/-- Over every instruction but CLEAR the buffer is only extended (R52). -/
theorem Invariant.exec_extends {s u : State} {i : Instr} (h : Invariant s) (hi : i ≠ .clear) (hu : Machine.exec i s = .next u) :
    BufferExtends s u := by
  obtain ⟨c, -, rfl, -⟩ | ⟨-, rfl, -⟩ | ⟨-, rfl⟩ | ⟨hclear, -⟩ | ⟨v, rfl, -⟩ | ⟨-, hd, -, hf⟩ |
    ⟨-, hd, l, d, -, -, hc, ha⟩ := exec_inv hu
  · exact .of_eq rfl rfl
  · exact .of_eq rfl rfl
  · exact .of_eq rfl rfl
  · exact absurd hclear hi
  · exact .of_eq (sampleRead_byteCount v s) (sampleRead_buf v s)
  · exact h.flush_extends hd hf
  · exact h.append_extends hd hc ha

/-- Settles O41: `Invariant.exec_extends`, and the invariant the instruction keeps bounds the new BYTE_COUNT. -/
theorem bufferIsWrittenInOrder : Obligations.BufferIsWrittenInOrder := by
  unfold Obligations.BufferIsWrittenInOrder
  intro i s u h hi hu
  obtain ⟨hcount, hout⟩ := h.exec_extends hi hu
  obtain ⟨u', hu', hinv⟩ := h.exec i
  rw [hu] at hu'; cases hu'
  obtain ⟨hcfg, -⟩ := exec_ports hu
  exact ⟨hcount, hcfg ▸ hinv.byteCount_le, hout⟩

end Sys2Proof.Machine
end

section
/-! SUPPORT. Proofs of the statements of 30_encoding.md. The decoder: an equation per OP value, and a word as the four fields of
CMD64 put together, so that masking a word masks its fields and the decoder's answer depends on OP, LEN and DATA alone. The
assembler: the word of a legal PUSH line is the encoding of that PUSH, and the chunks of PUSHS carry its string (O52), so both run
by the round trip (O4) and `pushes_run`. The command port: what a turn is for each action of the host. -/

namespace Sys2Proof.Machine

/-! ### The round trip -/

/-- Settles O4: constructor by constructor, the fields of an instruction's word are the instruction's operands. -/
theorem decodeOfEncodeIsTheInstruction : Obligations.DecodeOfEncodeIsTheInstruction := by
  unfold Obligations.DecodeOfEncodeIsTheInstruction
  intro i
  cases i with
  | nop => exact Laws.RoundTrip.nop
  | push len data => exact Laws.RoundTrip.push len data
  | finalize => exact Laws.RoundTrip.finalize
  | clear => exact Laws.RoundTrip.clear
  | reserved47 op => exact Laws.RoundTrip.reserved47 op
  | reserved8F op => exact Laws.RoundTrip.reserved8F op
  | readReg i => exact Laws.RoundTrip.readReg i
  | readBuf i => exact Laws.RoundTrip.readBuf i

/-! ### The bits of a PUSH -/

/-- The code of a PUSH is the low n bits of DATA and nothing else (R77). -/
theorem pushCode_congr {n : Nat} {data data' : Word} (h : ∀ j < n, data'.getLsbD j = data.getLsbD j) :
    pushCode n data' = pushCode n data := by
  refine Nat.eq_of_testBit_eq fun j => ?_
  rw [pushCode, pushCode, Nat.testBit_mod_two_pow, Nat.testBit_mod_two_pow]
  by_cases hj : j < n
  · have := h j hj
    simp only [BitVec.getLsbD] at this
    rw [this]
  · simp [hj]

/-- The string of a PUSH is DATA[n-1] down to DATA[0] (R77). -/
theorem pushBits_eq_map (len : BitVec 6) (data : Word) :
    pushBits len data = (List.range len.toNat).map fun j => data.getLsbD (len.toNat - 1 - j) := by
  rw [pushBits, pushCode, bitsOf_mod, bitsOf_eq_map]
  rfl

/-- Settles O9: the barrel shifter appends the string of the PUSH, and it sees of DATA only the code. -/
theorem pushAppendsDataBitsHighestFirst : Obligations.PushAppendsDataBitsHighestFirst := by
  unfold Obligations.PushAppendsDataBitsHighestFirst
  intro len data s h herr hdone hl hfit
  obtain ⟨u, hu, -, hframe, -⟩ := h.append (code := pushCode len.toNat data) hdone hfit
  refine ⟨u, ?_, ?_, ?_, fun data' hlow => ?_⟩
  · rw [exec_push_ok herr hdone hl hfit, hu]
  · rw [hframe]; exact herr
  · rw [← pushBits_eq_map]; exact h.append_stream hdone hfit hu
  · rw [exec_push_ok herr hdone hl hfit, pushCode_congr hlow, hu]

/-! ### The words of the assembler -/

/-- The fields of a PUSH side by side are its word as a number (R83). -/
theorem shiftLeft_or_fields {n v : Nat} (h32 : n ≤ 32) (hv : v < 2 ^ 32) :
    0x1 <<< 60 ||| n <<< 32 ||| v = 2 ^ 60 + n * 2 ^ 32 + v := by
  rw [Nat.lor_assoc, ← Nat.shiftLeft_add_eq_or_of_lt hv, ← Nat.shiftLeft_add_eq_or_of_lt] <;>
    simp only [Nat.shiftLeft_eq] <;> omega

/-- The word of a PUSH from its operands as numbers (R83). -/
theorem encode_push_ofNat {n v : Nat} (h32 : n ≤ 32) (hv : v < 2 ^ 32) :
    encode (.push (BitVec.ofNat 6 n) (BitVec.ofNat 32 v)) = .command (BitVec.ofNat 64 (2 ^ 60 + n * 2 ^ 32 + v)) := by
  have hop : (0x1 : BitVec 4).toNat = 1 := rfl
  refine congrArg Request.command (BitVec.eq_of_toNat_eq ?_)
  rw [commandWord_toNat, hop]
  simp only [BitVec.toNat_ofNat]
  omega

/-- A value that its length holds fits DATA (R76). -/
theorem lt_data_of_lt {n v : Nat} (h32 : n ≤ 32) (hv : v < 2 ^ n) : v < 2 ^ 32 :=
  Nat.lt_of_lt_of_le hv (Nat.pow_le_pow_right (by omega) h32)

/-- A legal PUSH line is the encoding of its PUSH (R83). -/
theorem pushWord_legal {n v : Nat} (h1 : 1 ≤ n) (h32 : n ≤ 32) (hv : v < 2 ^ n) :
    pushWord n v = .ok (encode (.push (BitVec.ofNat 6 n) (BitVec.ofNat 32 v))) := by
  have hdata := lt_data_of_lt h32 hv
  rw [pushWord, if_neg (by omega), if_neg (by omega), shiftLeft_or_fields h32 hdata, encode_push_ofNat h32 hdata]

/-- Any other PUSH line is refused (R83). -/
theorem pushWord_refused {n v : Nat} (h : n = 0 ∨ 32 < n ∨ 2 ^ n ≤ v) : ∃ e, pushWord n v = .error e := by
  by_cases hn : 1 ≤ n ∧ n ≤ 32
  · exact ⟨.pushValue, by rw [pushWord, if_neg (not_not.2 hn), if_pos (by omega)]⟩
  · exact ⟨.pushLength, by rw [pushWord, if_pos hn]⟩

/-! ### The chunks of PUSHS -/

/-- The operands of the PUSH that carries a bit string (R84). -/
def chunkOperands (t : List Bool) : BitVec 6 × Word := (BitVec.ofNat 6 t.length, BitVec.ofNat 32 (valOf t))

theorem chunkOperands_len {t : List Bool} (h : t.length ≤ 32) : (chunkOperands t).1.toNat = t.length := by
  rw [chunkOperands, BitVec.toNat_ofNat]; omega

/-- The PUSH of a chunk pushes the chunk (R84). -/
theorem pushBits_chunkOperands {t : List Bool} (h : t.length ≤ 32) :
    pushBits (chunkOperands t).1 (chunkOperands t).2 = t := by
  have hval : (chunkOperands t).2.toNat = valOf t := by
    rw [chunkOperands, BitVec.toNat_ofNat, Nat.mod_eq_of_lt (lt_data_of_lt h (valOf_lt t))]
  rw [pushBits, pushCode, bitsOf_mod, chunkOperands_len h, hval, bitsOf_valOf]

/-- The first chunk is the first 32 bits, or all of them if they are fewer (R84). -/
theorem chunks32_succ {fuel : Nat} {s : List Bool} (h : s ≠ []) :
    chunks32 (fuel + 1) s = s.take 32 :: chunks32 fuel (s.drop 32) := by
  cases s with
  | nil => exact absurd rfl h
  | cons b s => rfl

/-- The chunks of a bit string join to it, each is legal to push, and there are ceil(|s| / 32) of them (R84). -/
theorem chunks32_spec {fuel : Nat} {s : List Bool} (h : s.length ≤ fuel) :
    (chunks32 fuel s).flatten = s ∧ (∀ t ∈ chunks32 fuel s, 1 ≤ t.length ∧ t.length ≤ 32) ∧
      (chunks32 fuel s).length = (s.length + 31) / 32 := by
  induction fuel, s using chunks32.induct with
  | case1 s =>
    obtain rfl := List.length_eq_zero_iff.1 (Nat.le_zero.1 h)
    simp [chunks32]
  | case2 fuel _ => simp [chunks32]
  | case3 fuel s hne ih =>
    have hpos : 1 ≤ s.length := List.length_pos_iff.2 hne
    have hlen : (s.drop 32).length = s.length - 32 := List.length_drop
    obtain ⟨hjoin, hlegal, hcount⟩ := ih (by omega)
    rw [chunks32_succ hne]
    refine ⟨?_, ?_, ?_⟩
    · rw [List.flatten_cons, hjoin, List.take_append_drop]
    · intro t ht
      obtain rfl | ht := List.mem_cons.1 ht
      · rw [List.length_take]; omega
      · exact hlegal t ht
    · rw [List.length_cons, hcount]; omega

/-- The words of a list of chunks are the encodings of their PUSH commands (R84). -/
theorem pushWords_chunks {ts : List (List Bool)} (h : ∀ t ∈ ts, 1 ≤ t.length ∧ t.length ≤ 32) :
    pushWords (ts.map fun t => (t.length, valOf t)) = .ok ((pushes (ts.map chunkOperands)).map encode) := by
  induction ts with
  | nil => rfl
  | cons t ts ih =>
    obtain ⟨h1, h32⟩ := h t (by simp)
    have hrest := ih fun t' ht' => h t' (by simp [ht'])
    simp only [List.map_cons, pushWords, pushWord_legal h1 h32 (valOf_lt t), hrest]
    rfl

/-- Decoding the words of PUSH commands gives the PUSH commands back (R74). -/
theorem map_decode_encode_pushes (ps : List (BitVec 6 × Word)) : ((pushes ps).map encode).map decode = pushes ps := by
  rw [List.map_map, pushes, List.map_map]
  exact List.map_congr_left fun p _ => Laws.RoundTrip.push p.1 p.2 rfl

/-- The PUSH commands of chunks carry the string that the chunks join to (R40, R84). -/
theorem streamOf_chunkOperands {ts : List (List Bool)} (h : ∀ t ∈ ts, t.length ≤ 32) :
    streamOf (ts.map chunkOperands) = ts.flatten := by
  induction ts with
  | nil => rfl
  | cons t ts ih =>
    rw [List.map_cons, streamOf, List.flatMap_cons, List.flatten_cons, pushBits_chunkOperands (h t (by simp))]
    exact congrArg (t ++ ·) (ih fun t' ht' => h t' (by simp [ht']))

/-- A legal PUSH line assembles to the encoding of its PUSH (R83). -/
theorem assembleLine_push_legal {n v : Nat} (h1 : 1 ≤ n) (h32 : n ≤ 32) (hv : v < 2 ^ n) :
    assembleLine (.push n v) = .ok [encode (.push (BitVec.ofNat 6 n) (BitVec.ofNat 32 v))] := by
  rw [assembleLine, pushWords, pushWord_legal h1 h32 hv]
  rfl

/-- A non-empty PUSHS line assembles to ceil(|s| / 32) words that decode to PUSH commands of legal lengths which carry the string
(R84). -/
theorem assembleLine_pushs {bits : List Bool} (h : bits ≠ []) :
    ∃ rs ps, assembleLine (.pushs bits) = .ok rs ∧ rs.length = (bits.length + 31) / 32 ∧ rs.map decode = pushes ps ∧
      AllLegal ps ∧ streamOf ps = bits := by
  obtain ⟨hjoin, hlen, hcount⟩ := chunks32_spec (Nat.le_refl bits.length)
  refine ⟨_, (chunks32 bits.length bits).map chunkOperands, ?_, ?_, map_decode_encode_pushes _, ?_, ?_⟩
  · rw [assembleLine, if_neg h, pushWords_chunks hlen]
  · rw [← hcount]; simp [pushes]
  · intro p hp
    obtain ⟨t, ht, rfl⟩ := List.mem_map.1 hp
    rw [lenLegal, chunkOperands_len (hlen t ht).2]
    exact hlen t ht
  · rw [streamOf_chunkOperands fun t ht => (hlen t ht).2, hjoin]

/-- Settles O52: the words of PUSHS decode to PUSH commands that carry the string, and those that fit append it. -/
theorem pseudoInstructionsExpandFaithfully : Obligations.PseudoInstructionsExpandFaithfully := by
  unfold Obligations.PseudoInstructionsExpandFaithfully
  refine ⟨fun s bits hne h herr hdone hfit => ?_, ⟨.emptyString, rfl⟩, fun b hb => ?_, rfl⟩
  · obtain ⟨rs, ps, hasm, hcount, hdec, hlegal, hcarry⟩ := assembleLine_pushs hne
    obtain ⟨u, hu, -, hstream, hframe, -⟩ := pushes_run ps h herr hdone hlegal (by rw [hcarry]; exact hfit)
    refine ⟨rs, u, hasm, hcount, ?_, ?_, ?_⟩
    · rw [hdec, hu]
    · rw [hframe]; exact herr
    · rw [hstream, hcarry]
  · exact if_pos hb

/-! ### The decoder, an equation per OP value -/

/-- OP, from the word as a number (R74). -/
theorem opField_eq (w : CommandWord) : opField w = BitVec.ofNat 4 (w.toNat / 2 ^ 60) := by
  rw [← opField_toNat, BitVec.ofNat_toNat, BitVec.setWidth_eq]

theorem decodeCommand_nop {w : CommandWord} (h : w.toNat / 2 ^ 60 = 0) : decodeCommand w = .nop := by
  have hop : opField w = 0x0 := (opField_eq_iff w 0x0).2 h
  rw [decodeCommand, if_pos hop]

theorem decodeCommand_push {w : CommandWord} (h : w.toNat / 2 ^ 60 = 1) :
    decodeCommand w = .push (lenField w) (dataField w) := by
  have hop : opField w = 0x1 := (opField_eq_iff w 0x1).2 h
  simp [decodeCommand, hop]

theorem decodeCommand_finalize {w : CommandWord} (h : w.toNat / 2 ^ 60 = 2) : decodeCommand w = .finalize := by
  have hop : opField w = 0x2 := (opField_eq_iff w 0x2).2 h
  simp [decodeCommand, hop]

theorem decodeCommand_clear {w : CommandWord} (h : w.toNat / 2 ^ 60 = 3) : decodeCommand w = .clear := by
  have hop : opField w = 0x3 := (opField_eq_iff w 0x3).2 h
  simp [decodeCommand, hop]

/-- From 4 on OP is reserved, and its row is told by its highest bit (R79, R86). -/
theorem decodeCommand_reserved {w : CommandWord} (h : 4 ≤ w.toNat / 2 ^ 60) :
    decodeCommand w = if w.toNat / 2 ^ 60 ≤ 7 then .reserved47 (opField w) else .reserved8F (opField w) := by
  have hne : ∀ x : BitVec 4, x.toNat ≤ 3 → opField w ≠ x := fun x hx hop => by
    have := (opField_eq_iff w x).1 hop
    omega
  rw [decodeCommand, if_neg (hne 0x0 (by decide)), if_neg (hne 0x1 (by decide)), if_neg (hne 0x2 (by decide)),
    if_neg (hne 0x3 (by decide)), opField_toNat]

/-- An error is recorded when ERR = 0, and the command is ignored when ERR = 1 (R163, R164). -/
theorem unlessErr_raiseError (c : ErrorCode) (s : State) :
    unlessErr s (raiseError c s) = .next (if s.err then s else recordError c s) := by
  cases h : s.err with
  | true => exact unlessErr_of_err h
  | false => exact unlessErr_of_no_err h

/-- A reserved word records E_OP when ERR = 0 and is ignored when ERR = 1 (R79). -/
theorem exec_reserved_word {w : CommandWord} (h : 4 ≤ w.toNat / 2 ^ 60) (s : State) :
    exec (decodeCommand w) s = .next (if s.err then s else recordError .op s) := by
  rw [decodeCommand_reserved h]
  split
  · exact unlessErr_raiseError .op s
  · exact unlessErr_raiseError .op s

/-- Settles O2: the decoder's equations, with the fields as numbers; a reserved word records E_OP. -/
theorem decoderIsTheSpecsTotalMap : Obligations.DecoderIsTheSpecsTotalMap := by
  unfold Obligations.DecoderIsTheSpecsTotalMap
  intro w
  refine ⟨decodeCommand_nop, fun h => ?_, decodeCommand_finalize, decodeCommand_clear, fun h4 h7 => ?_, fun h8 => ?_,
    fun h4 s herr => ?_⟩
  · rw [decodeCommand_push h, lenField_eq, dataField_eq]
  · rw [decodeCommand_reserved h4, if_pos h7, opField_eq]
  · rw [decodeCommand_reserved (by omega), if_neg (by omega), opField_eq]
  · rw [exec_reserved_word h4, herr]; rfl

/-! ### Read requests -/

/-- rd_space is the request divided by 2^32 (R82). -/
theorem spaceField_toNat (q : ReadWord) : (spaceField q).toNat = q.toNat / 2 ^ 32 := by
  have := q.isLt
  rw [spaceField, BitVec.extractLsb'_toNat, Nat.shiftRight_eq_div_pow]
  omega

/-- rd_addr, from the request as a number (R82). -/
theorem addrField_eq (q : ReadWord) : addrField q = BitVec.ofNat 32 (q.toNat % 2 ^ 32) := by
  refine BitVec.eq_of_toNat_eq ?_
  simp [addrField]

/-- Settles O3: bit 32 is the quotient by 2^32, and the index is the remainder. -/
theorem everyRequestWordIsARead : Obligations.EveryRequestWordIsARead := by
  unfold Obligations.EveryRequestWordIsARead
  intro q
  have hspace := spaceField_toNat q
  refine ⟨fun h => ?_, fun h => ?_, by have := q.isLt; omega⟩
  · have h0 : spaceField q = 0 := BitVec.eq_of_toNat_eq (hspace.trans h)
    rw [decodeRead, if_pos h0, addrField_eq]
  · have h1 : spaceField q = 1 := BitVec.eq_of_toNat_eq (hspace.trans h)
    rw [decodeRead, if_neg (by rw [h1]; decide), addrField_eq]

/-! ### A word as its fields -/

/-- RSV, bits [59:38] (R74). -/
def rsvField (w : CommandWord) : BitVec 22 := w.extractLsb' 38 22

/-- A command word is its four fields side by side (R74). -/
theorem fields_append (w : CommandWord) : (opField w ++ rsvField w ++ lenField w ++ dataField w : CommandWord) = w := by
  rw [opField, rsvField, lenField, dataField,
    BitVec.extractLsb'_append_extractLsb'_eq_extractLsb' (show 60 = 38 + 22 from rfl),
    BitVec.extractLsb'_append_extractLsb'_eq_extractLsb' (show 38 = 32 + 6 from rfl),
    BitVec.extractLsb'_append_extractLsb'_eq_extractLsb' (show 32 = 0 + 32 from rfl)]
  exact BitVec.extractLsb'_eq_self

/-- Masking a word with a canonical word masks OP, LEN and DATA and zeroes RSV (R74). -/
theorem and_commandWord (w : CommandWord) (op : BitVec 4) (len : BitVec 6) (data : Word) :
    w &&& commandWord op len data = commandWord (opField w &&& op) (lenField w &&& len) (dataField w &&& data) := by
  have hrsv : rsvField w &&& 0 = 0 := BitVec.and_zero
  conv_lhs => rw [← fields_append w]
  rw [commandWord, commandWord, BitVec.and_append, BitVec.and_append, BitVec.and_append, hrsv]

/-- A read request is its two fields side by side (R82). -/
theorem readFields_append (q : ReadWord) : (spaceField q ++ addrField q : ReadWord) = q := by
  rw [spaceField, addrField, BitVec.extractLsb'_append_extractLsb'_eq_extractLsb' (show 32 = 0 + 32 from rfl)]
  exact BitVec.extractLsb'_eq_self

/-- Masking all but OP (R78). -/
theorem and_opMask (w : CommandWord) (m : BitVec 4) : w &&& commandWord m 0 0 = commandWord (opField w &&& m) 0 0 := by
  have hlen : lenField w &&& 0 = 0 := BitVec.and_zero
  have hdata : dataField w &&& 0 = 0 := BitVec.and_zero
  rw [and_commandWord, hlen, hdata]

/-- What the decoder gives has its OP in the row of its constructor (R75, R86). -/
theorem decodeCommand_wellFormed (w : CommandWord) : (decodeCommand w).wellFormed = true := by
  have hop := opField_toNat w
  by_cases h4 : 4 ≤ w.toNat / 2 ^ 60
  · rw [decodeCommand_reserved h4]
    split
    · simp only [Instr.wellFormed, decide_eq_true_eq]; omega
    · simp only [Instr.wellFormed, decide_eq_true_eq]; omega
  · obtain h | h | h | h : w.toNat / 2 ^ 60 = 0 ∨ w.toNat / 2 ^ 60 = 1 ∨ w.toNat / 2 ^ 60 = 2 ∨ w.toNat / 2 ^ 60 = 3 := by
      omega
    · rw [decodeCommand_nop h]; rfl
    · rw [decodeCommand_push h]; rfl
    · rw [decodeCommand_finalize h]; rfl
    · rw [decodeCommand_clear h]; rfl

theorem decodeRead_wellFormed (q : ReadWord) : (decodeRead q).wellFormed = true := by
  obtain ⟨x, hx⟩ | ⟨x, hx⟩ := decodeRead_isRead q
  · rw [hx]; rfl
  · rw [hx]; rfl

/-- A command word that is no PUSH is encoded again as its OP alone (R78). -/
theorem encode_decodeCommand_of_not_push {w : CommandWord} (h : w.toNat / 2 ^ 60 ≠ 1) :
    encode (decodeCommand w) = .command (commandWord (opField w) 0 0) := by
  by_cases h4 : 4 ≤ w.toNat / 2 ^ 60
  · rw [decodeCommand_reserved h4]
    split
    · rfl
    · rfl
  · obtain h | h | h : w.toNat / 2 ^ 60 = 0 ∨ w.toNat / 2 ^ 60 = 2 ∨ w.toNat / 2 ^ 60 = 3 := by omega
    · rw [decodeCommand_nop h, (opField_eq_iff w 0x0).2 h]; rfl
    · rw [decodeCommand_finalize h, (opField_eq_iff w 0x2).2 h]; rfl
    · rw [decodeCommand_clear h, (opField_eq_iff w 0x3).2 h]; rfl

/-- A PUSH word is encoded again with its LEN and DATA (R78). -/
theorem encode_decodeCommand_of_push {w : CommandWord} (h : w.toNat / 2 ^ 60 = 1) :
    encode (decodeCommand w) = .command (commandWord (opField w) (lenField w) (dataField w)) := by
  rw [decodeCommand_push h, (opField_eq_iff w 0x1).2 h]; rfl

/-- A read request is encoded again whole (R82). -/
theorem encode_decodeRead (q : ReadWord) : encode (decodeRead q) = .read q := by
  have hword : ∀ b : BitVec 1, spaceField q = b → Request.read (b ++ addrField q) = .read q := fun b hb => by
    rw [← hb, readFields_append]
  obtain h | h : spaceField q = 0 ∨ spaceField q = 1 := by
    generalize spaceField q = b
    revert b
    decide
  · rw [decodeRead, if_pos h]; exact hword 0 h
  · rw [decodeRead, if_neg (by rw [h]; decide)]; exact hword 1 h

/-- Settles O5: the masks are canonical words, so masking a word leaves the fields that its instruction is encoded from. -/
theorem encodeOfDecodeZeroesIgnoredFields : Obligations.EncodeOfDecodeZeroesIgnoredFields := by
  unfold Obligations.EncodeOfDecodeZeroesIgnoredFields
  have hpush : (0xF000003FFFFFFFFF : CommandWord) = commandWord (BitVec.allOnes 4) (BitVec.allOnes 6) (BitVec.allOnes 32) := by
    decide
  have hop : (0xF000000000000000 : CommandWord) = commandWord (BitVec.allOnes 4) 0 0 := by decide
  refine ⟨fun r => ?_, fun w h => ?_, fun w h => ?_, encode_decodeRead⟩
  · cases r with
    | command w => exact decodeCommand_wellFormed w
    | read q => exact decodeRead_wellFormed q
  · rw [encode_decodeCommand_of_push h, hpush, and_commandWord, BitVec.and_allOnes, BitVec.and_allOnes, BitVec.and_allOnes]
  · rw [encode_decodeCommand_of_not_push h, hop, and_opMask, BitVec.and_allOnes]

/-- The decoder reads OP, and of a PUSH word LEN and DATA (R78, R86). -/
theorem decodeCommand_congr {w v : CommandWord} (hop : opField w = opField v)
    (hpush : opField w = 0x1 → lenField w = lenField v ∧ dataField w = dataField v) :
    decodeCommand w = decodeCommand v := by
  by_cases h1 : opField w = 0x1
  · obtain ⟨hlen, hdata⟩ := hpush h1
    rw [decodeCommand, decodeCommand, hop, hlen, hdata]
  · have h1v : opField v ≠ 0x1 := hop ▸ h1
    rw [decodeCommand, decodeCommand, hop, if_neg h1v, if_neg h1v]

/-- Settles O6: words that agree in the fields the decoder reads decode to the same instruction. -/
theorem ignoredFieldsHaveNoEffect : Obligations.IgnoredFieldsHaveNoEffect := by
  unfold Obligations.IgnoredFieldsHaveNoEffect
  intro w v s hop hlow
  rw [decodeCommand_congr (w := w) (v := v)]
  · rw [opField_eq, opField_eq, hop]
  · intro h1
    have hlow38 := hlow ((opField_eq_iff w 0x1).1 h1)
    have hlen : w.toNat / 2 ^ 32 % 2 ^ 6 = v.toNat / 2 ^ 32 % 2 ^ 6 := by omega
    have hdata : w.toNat % 2 ^ 32 = v.toNat % 2 ^ 32 := by omega
    rw [lenField_eq, lenField_eq, dataField_eq, dataField_eq, hlen, hdata]
    exact ⟨rfl, rfl⟩

/-! ### The opcode table -/

/-- The row that a word decodes to depends on its OP alone (R75). -/
theorem mnemonic_decodeCommand (w : CommandWord) :
    (decodeCommand w).mnemonic = (decodeCommand (commandWord (opField w) 0 0)).mnemonic := by
  by_cases h1 : opField w = 0x1
  · have h1' : opField (commandWord (opField w) 0 0) = 0x1 := (opField_commandWord ..).trans h1
    rw [decodeCommand_push ((opField_eq_iff _ 0x1).1 h1), decodeCommand_push ((opField_eq_iff _ 0x1).1 h1')]
    rfl
  · rw [decodeCommand_congr (opField_commandWord (opField w) 0 0).symm fun h => absurd h h1]

/-- The table's rows fix bits of OP alone (R75). -/
theorem commandTable_fixes_op : ∀ r ∈ commandTable,
    r.mask = commandWord (opField r.mask) 0 0 ∧ r.value = commandWord (opField r.value) 0 0 := by
  decide

/-- The table's rows and the decoder read the 16 OP values alike (R75, R86). -/
theorem commandTable_op_iff : ∀ r ∈ commandTable, ∀ op : BitVec 4,
    op &&& opField r.mask = opField r.value ↔ (decodeCommand (commandWord op 0 0)).mnemonic = r.mnemonic := by
  decide

theorem commandWord_op_inj {a b : BitVec 4} : commandWord a 0 0 = commandWord b 0 0 ↔ a = b :=
  ⟨fun h => by rw [← opField_commandWord a 0 0, h, opField_commandWord], fun h => by rw [h]⟩

/-- Settles O7: row and decoder both look at OP alone, and there they agree. -/
theorem decoderFollowsTheOpcodeTable : Obligations.DecoderFollowsTheOpcodeTable := by
  unfold Obligations.DecoderFollowsTheOpcodeTable
  intro w r hr
  obtain ⟨hmask, hvalue⟩ := commandTable_fixes_op r hr
  rw [CommandRow.matches, hmask, hvalue, and_opMask, commandWord_op_inj, mnemonic_decodeCommand]
  exact commandTable_op_iff r hr (opField w)

/-! ### The status outputs -/

/-- Of the instructions only CLEAR lowers DONE or ERR (R47). -/
theorem exec_lowers_flag {i : Instr} {s u : State} (h : exec i s = .next u)
    (hfall : (s.done = true ∧ u.done = false) ∨ (s.err = true ∧ u.err = false)) : i = .clear := by
  obtain ⟨hdone, herr, -⟩ := flagsHaveOnlyTheirWriters i s u h
  obtain ⟨hs, hu⟩ | ⟨hs, hu⟩ := hfall
  · obtain ⟨-, hup⟩ | ⟨hi, -⟩ := hdone (by simp [hs, hu])
    · simp [hu] at hup
    · exact hi
  · obtain ⟨hi, -⟩ | ⟨hup, -⟩ := herr (by simp [hs, hu])
    · exact hi
    · simp [hu] at hup

/-- Over a step only CLEAR or reset lowers DONE or ERR (R170). -/
theorem step_lowers_flag {s t : State} (h : step s = .next t)
    (hfall : (s.done = true ∧ t.done = false) ∨ (s.err = true ∧ t.err = false)) :
    (∃ u, nextTurn s = .run .clear u) ∨ t.rst = true := by
  obtain ⟨i, s', hn, he⟩ | ⟨s', hn, he⟩ := step_cases s
  · obtain ⟨hs', -⟩ := nextTurn_run hn
    obtain rfl := exec_lowers_flag (he ▸ h) (by rw [hs']; exact hfall)
    exact .inl ⟨s', hn⟩
  · obtain rfl : s' = t := by rw [he] at h; cases h; rfl
    obtain ⟨hrst, -⟩ | ⟨hkeep, -⟩ := nextTurn_settle hn
    · exact .inr hrst
    · rw [hkeep] at hfall
      simp at hfall

/-- Settles O36: `step_lowers_flag`, for each of the two outputs. -/
theorem statusOutputsFallOnlyByClearOrReset : Obligations.StatusOutputsFallOnlyByClearOrReset := by
  unfold Obligations.StatusOutputsFallOnlyByClearOrReset
  intro s t h
  exact ⟨rfl, rfl, fun hs ht => step_lowers_flag h (.inl ⟨hs, ht⟩), fun hs ht => step_lowers_flag h (.inr ⟨hs, ht⟩)⟩

/-! ### The lines of the assembler -/

/-- The word of a legal PUSH line decodes to its PUSH (R83, R86). -/
theorem decodeCommand_pushWord {n v : Nat} (h32 : n ≤ 32) (hv : v < 2 ^ 32) :
    decodeCommand (BitVec.ofNat 64 (2 ^ 60 + n * 2 ^ 32 + v)) = .push (BitVec.ofNat 6 n) (BitVec.ofNat 32 v) := by
  have h := Laws.RoundTrip.push (BitVec.ofNat 6 n) (BitVec.ofNat 32 v) rfl
  rwa [encode_push_ofNat h32 hv] at h

/-- A PUSH line with another length or value is refused (R83). -/
theorem assembleLine_push_refused {n v : Nat} (h : n = 0 ∨ 32 < n ∨ 2 ^ n ≤ v) :
    ∃ e, assembleLine (.push n v) = .error e := by
  obtain ⟨e, he⟩ := pushWord_refused h
  exact ⟨e, by rw [assembleLine, pushWords, he]⟩

theorem assembleLine_cmd (w : CommandWord) : assembleLine (.cmd w.toNat) = .ok [.command w] := by
  rw [assembleLine, if_pos w.isLt, BitVec.ofNat_toNat, BitVec.setWidth_eq]

/-- A read request from its fields as numbers (R82). -/
theorem readWord_eq_ofNat (b : BitVec 1) (i : Word) :
    (b ++ i : ReadWord) = BitVec.ofNat 33 (b.toNat * 2 ^ 32 + i.toNat) := by
  rw [← readWord_toNat, BitVec.ofNat_toNat, BitVec.setWidth_eq]

theorem assembleLine_rdreg (i : Word) : assembleLine (.rdreg i.toNat) = .ok [encode (.readReg i)] := by
  rw [assembleLine, if_pos i.isLt, encode, readWord_eq_ofNat]
  simp

theorem assembleLine_rdbuf (i : Word) : assembleLine (.rdbuf i.toNat) = .ok [encode (.readBuf i)] := by
  rw [assembleLine, if_pos i.isLt, encode, readWord_eq_ofNat]
  simp

/-- Settles O51: line by line. -/
theorem assemblerEmitsTheSpecsWords : Obligations.AssemblerEmitsTheSpecsWords := by
  unfold Obligations.AssemblerEmitsTheSpecsWords
  refine ⟨rfl, rfl, rfl, fun n v h1 h32 hv => ⟨?_, decodeCommand_pushWord h32 (lt_data_of_lt h32 hv)⟩,
    fun n v h => assembleLine_push_refused h, assembleLine_cmd, fun i => ⟨assembleLine_rdreg i, assembleLine_rdbuf i⟩⟩
  rw [assembleLine_push_legal h1 h32 hv, encode_push_ofNat h32 (lt_data_of_lt h32 hv)]

/-- Settles O1: the words of the rule, evaluated. -/
theorem exampleWordsAssembleAndDecode : Obligations.ExampleWordsAssembleAndDecode := by
  unfold Obligations.ExampleWordsAssembleAndDecode
  decide

/-! ### The reserved opcodes -/

/-- Settles O18: `exec_reserved_word`. -/
theorem reservedOpcodesRecordEOp : Obligations.ReservedOpcodesRecordEOp := by
  unfold Obligations.ReservedOpcodesRecordEOp
  intro s
  exact ⟨fun _ => unlessErr_raiseError .op s, fun _ => unlessErr_raiseError .op s, fun w h => exec_reserved_word h s⟩

/-! ### The command port: the turn of each action of the host -/

section Turns

variable {s : State} {w w₀ : CommandWord} {q : ReadWord} {rest : List HostAction}

theorem nextTurn_nil (h : s.inputs = []) : nextTurn s = idleTurn s := by simp only [nextTurn, h]

theorem nextTurn_idle (h : s.inputs = .idle :: rest) : nextTurn s = idleTurn { s with inputs := rest } := by
  simp only [nextTurn, h]

theorem nextTurn_offer (h : s.inputs = .offer w :: rest) : nextTurn s = offerTurn w { s with inputs := rest } := by
  simp only [nextTurn, h]

theorem nextTurn_present_command (h : s.inputs = .present (.command w) :: rest) : nextTurn s = commandTurn w rest s := by
  simp only [nextTurn, h]

theorem nextTurn_present_read (h : s.inputs = .present (.read q) :: rest) :
    nextTurn s = .run (decodeRead q) { s with inputs := rest } := by
  simp only [nextTurn, h]

/-- A command in flight completes when nothing is presented (R198). -/
theorem idleTurn_completes (hrst : s.rst = false) (hfl : s.inFlight = some w) :
    idleTurn s = .run (decodeCommand w) { s with inFlight := none } := by
  simp [idleTurn, hrst, hfl]

/-- A command presented while cmd_ready = 1 is accepted and completes (R71). -/
theorem commandTurn_ready (hrst : s.rst = false) (hfl : s.inFlight = none) :
    commandTurn w rest s = .run (decodeCommand w) { s with inputs := rest } := by
  simp [commandTurn, hrst, hfl]

/-- A command presented while another is in flight waits until that one has completed (R197). -/
theorem commandTurn_waits (hrst : s.rst = false) (hfl : s.inFlight = some w₀) :
    commandTurn w rest s = .run (decodeCommand w₀) { s with inFlight := none } := by
  simp [commandTurn, hrst, hfl]

/-- A command offered while cmd_ready = 1 is accepted (R71). -/
theorem offerTurn_ready (hrst : s.rst = false) (hfl : s.inFlight = none) :
    offerTurn w s = .settle { s with inFlight := some w } := by
  simp [offerTurn, hrst, hfl]

/-- A command offered while another is in flight has no effect (R71, R197). -/
theorem offerTurn_busy (hrst : s.rst = false) (hfl : s.inFlight = some w₀) : offerTurn w s = .settle s := by
  simp [offerTurn, hrst, hfl]

end Turns

/-- Settles O32: the turn of each action, with cmd_ready taken apart. -/
theorem handshakeAcceptsWhenReady : Obligations.HandshakeAcceptsWhenReady := by
  unfold Obligations.HandshakeAcceptsWhenReady
  intro s w w₀ rest
  refine ⟨cmdReady_iff s, fun hin hready => ?_, fun hin hrst hfl => ?_, fun hin hrst hfl => ?_⟩
  · obtain ⟨hrst, hfl⟩ := (cmdReady_iff s).1 hready
    exact step_settle ((nextTurn_offer hin).trans (offerTurn_ready hrst hfl))
  · exact step_settle ((nextTurn_offer hin).trans (offerTurn_busy hrst hfl))
  · exact step_run ((nextTurn_present_command hin).trans (commandTurn_waits hrst hfl))

/-- A command word of the opcode table goes to the command port (R74). -/
theorem requestOfTableWord_command (w : CommandWord) : requestOfTableWord 64 w.toNat = .ok (.command w) := by
  rw [requestOfTableWord, if_neg (by decide), if_pos (by decide), if_pos w.isLt, BitVec.ofNat_toNat, BitVec.setWidth_eq]

/-- A request of the opcode table goes to the read port (R82). -/
theorem requestOfTableWord_read (q : ReadWord) : requestOfTableWord 40 q.toNat = .ok (.read q) := by
  rw [requestOfTableWord, if_pos (by decide), if_pos q.isLt, BitVec.ofNat_toNat, BitVec.setWidth_eq]

/-- Settles O33: every turn that completes a command or takes a read runs the decoded instruction. -/
theorem stepRunsTheDecodedInstruction : Obligations.StepRunsTheDecodedInstruction := by
  unfold Obligations.StepRunsTheDecodedInstruction
  intro s w q rest
  refine ⟨fun hin hready => ?_, fun hin => step_run (nextTurn_present_read hin), fun hin hrst hfl => ?_,
    fun hin hrst hfl => ?_, ?_, ?_⟩
  · obtain ⟨hrst, hfl⟩ := (cmdReady_iff s).1 hready
    exact step_run ((nextTurn_present_command hin).trans (commandTurn_ready hrst hfl))
  · exact step_run ((nextTurn_idle hin).trans (idleTurn_completes hrst hfl))
  · exact step_run ((nextTurn_nil hin).trans (idleTurn_completes hrst hfl))
  · rw [State.withFetchWord, requestOfTableWord_command]
    exact step_run ((nextTurn_present_command rfl).trans (commandTurn_ready rfl rfl))
  · rw [State.withFetchWord, requestOfTableWord_read]
    exact step_run (nextTurn_present_read rfl)

end Sys2Proof.Machine
end

section
/-! SUPPORT. Proofs of the statements of 40_stream_commands.md. PUSH (O8) is one equation per error and, without error,
`Invariant.append` with the shifter's values written as numbers; O10 is read off it. FINALIZE (O12 to O15) is
`Invariant.flush`, where FILL = TOTAL_BITS mod 8 says which case holds. Concatenation (O44): an open state that meets the
invariant is determined by its stream, the bytes from BYTE_COUNT on and the fields PUSH leaves alone
(`Invariant.eq_of_stream`), and a run of PUSH commands fixes all three. Determinism (O50): no instruction looks at the
model's own fields (`exec_forgetHost`) or at stale bytes (`exec_stale`), so a run keeps `SameObservably`. -/

namespace Sys2Proof.Machine

/-! ### PUSH -/

section PushErrors

variable {len : BitVec 6} {data : Word} {s : State}

/-- PUSH is ignored while ERR = 1 (R103, R164). -/
theorem exec_push_of_err (he : s.err = true) : exec (.push len data) s = .next s := unlessErr_of_err he

variable (he : s.err = false)
include he

/-- PUSH after FINALIZE records E_DONE (R103). -/
theorem exec_push_of_done (hd : s.done = true) : exec (.push len data) s = .next (recordError .done s) := by
  rw [exec_push, execPush, unlessErr_of_no_err he, if_pos hd, raiseError_eq]

variable (hd : s.done = false)
include hd

/-- PUSH of an illegal length records E_LEN (R76, R103). -/
theorem exec_push_of_not_lenLegal (hl : ¬ lenLegal len) : exec (.push len data) s = .next (recordError .len s) := by
  rw [exec_push, execPush, unlessErr_of_no_err he, if_neg (by simp [hd]), if_pos hl, raiseError_eq]

/-- PUSH beyond the capacity records E_OVF (R102, R103). -/
theorem exec_push_of_overflow (hl : lenLegal len) (hc : s.cfg.bufBytes < ceilDiv8 (s.totalBits.toNat + len.toNat)) :
    exec (.push len data) s = .next (recordError .ovf s) := by
  rw [exec_push, execPush, unlessErr_of_no_err he, if_neg (by simp [hd]), if_neg (not_not_intro hl), if_pos hc, raiseError_eq]

end PushErrors

/-- acc as a number (R101). -/
theorem partialValue_eq_div (s : State) :
    partialValue s = if s.fill = 0 then 0 else s.part.toNat / 2 ^ (8 - s.fill.toNat) := by
  rw [partialValue, Nat.shiftRight_eq_div_pow]

/-- w as a number: the code's n bits are below the partial bits (R101). -/
theorem shifterValue_eq_add (s : State) (n : Nat) (data : Word) :
    shifterValue s n (pushCode n data) = partialValue s * 2 ^ n + data.toNat % 2 ^ n := by
  rw [shifterValue, ← Nat.shiftLeft_add_eq_or_of_lt (pushCode_lt n data), Nat.shiftLeft_eq, pushCode]

/-- Settles O8: an equation per error, and without error `Invariant.append` and `Invariant.append_stream`. -/
theorem pushIsTheBarrelShifter : Obligations.PushIsTheBarrelShifter := by
  unfold Obligations.PushIsTheBarrelShifter
  rintro len data s n acc t w rfl hacc rfl hw
  refine ⟨exec_push_of_err, exec_push_of_done,
    fun he hd hn => exec_push_of_not_lenLegal he hd (by rw [lenLegal]; omega),
    fun he hd h1 h32 => exec_push_of_overflow he hd ⟨h1, h32⟩, fun h he hd h1 h32 hc => ?_⟩
  rw [← partialValue_eq_div] at hacc
  subst hacc
  rw [← shifterValue_eq_add] at hw
  obtain ⟨u, hu, hinv, hframe, hfill, hpart, hcount, htotal, hin, hout⟩ :=
    h.append (code := pushCode len.toNat data) hd hc
  refine ⟨u, (exec_push_ok he hd ⟨h1, h32⟩ hc).trans hu, hframe, hfill, ?_, hcount, htotal, fun j hj => ?_, hout,
    h.append_stream hd hc hu, hinv⟩
  · rw [hpart, remainderByte_toNat (Nat.mod_lt _ (by decide)), hw]
  · rw [hin j hj, wholeByte, Nat.shiftRight_eq_div_pow, hw]

/-- Settles O10: the clauses of O8, and the t ≤ 7 + 32 bits in the shifter hold at most four whole bytes. -/
theorem pushErrorsInOrderAndFlagsKept : Obligations.PushErrorsInOrderAndFlagsKept := by
  unfold Obligations.PushErrorsInOrderAndFlagsKept
  intro len data s
  obtain ⟨herr, hdone, hlen, hovf, hok⟩ := pushIsTheBarrelShifter len data s _ _ _ _ rfl rfl rfl rfl
  refine ⟨herr, hdone, hlen, hovf, fun h he hd h1 h32 hc => ?_⟩
  obtain ⟨u, hu, hframe, -, -, hcount, -, -, hout, -⟩ := hok h he hd h1 h32 hc
  have hfill := s.fill.isLt
  exact ⟨u, (s.fill.toNat + len.toNat) / 8, hu, hframe, by omega, hcount, hout⟩

/-- Settles O11: the overflow clause of O8, and otherwise a state that is still open and meets the invariant, in which
`Invariant.flush` completes. -/
theorem pushCapacityCheckLeavesRoomForFinalize : Obligations.PushCapacityCheckLeavesRoomForFinalize := by
  unfold Obligations.PushCapacityCheckLeavesRoomForFinalize
  intro len data s h he hd hl
  refine ⟨exec_push_of_overflow he hd hl, fun hc => ?_⟩
  obtain ⟨u, hu, hinv, hframe, -, -, -, htotal, -⟩ := h.append (code := pushCode len.toNat data) hd hc
  have heu : u.err = false := by rw [hframe]; exact he
  have hdu : u.done = false := by rw [hframe]; exact hd
  obtain ⟨v, hv, -, hframe', -⟩ := hinv.flush hdu
  exact ⟨u, v, (exec_push_ok he hd hl hc).trans hu, heu, htotal, (exec_fin_ok heu hdu).trans hv,
    by rw [hframe'], by rw [hframe']; exact heu⟩

/-! ### FINALIZE -/

/-- FILL as a number is 0 exactly when FILL is. -/
theorem fill_toNat_eq_zero_iff {s : State} : s.fill.toNat = 0 ↔ s.fill = 0 := by simp [← BitVec.toNat_inj]

/-- While the stream is open, FILL is TOTAL_BITS mod 8 (R42). -/
theorem Invariant.fill_eq_mod {s : State} (h : Invariant s) (hd : s.done = false) : s.fill.toNat = s.totalBits.toNat % 8 := by
  have := h.open_count hd
  have := s.fill.isLt
  omega

/-- Settles O12: its text and words, and `execFinalize` with `flush_cases` and `Invariant.flush`. -/
theorem finalizeFlushesAndCloses : Obligations.FinalizeFlushesAndCloses := by
  unfold Obligations.FinalizeFlushesAndCloses
  refine ⟨fun w => decodeCommand_finalize, rfl, by decide, rfl, fun s => ⟨unlessErr_of_err, fun he hd => ?_,
    fun he hd hf => ?_, fun h he hd hf => ?_⟩⟩
  · rw [exec_finalize, execFinalize, unlessErr_of_no_err he, if_pos hd]; rfl
  · rw [exec_fin_ok he hd, flush, if_pos hf]; rfl
  · obtain ⟨u, hu, -, hframe, -, hpad, -, hpart, hout⟩ := h.flush hd
    obtain ⟨hcount, hbyte⟩ := hpart hf
    have hpos := mt fill_toNat_eq_zero_iff.1 hf
    exact ⟨u, (exec_fin_ok he hd).trans hu, hframe, hcount, by omega, hbyte, h.part_aligned, hout⟩

/-- Settles O13: `Invariant.flush`, where FILL = TOTAL_BITS mod 8 says which of its cases holds. -/
theorem finalizeCornerCases : Obligations.FinalizeCornerCases := by
  unfold Obligations.FinalizeCornerCases
  intro s h he hd
  obtain ⟨u, hu, -, hframe, hcount, hpad, hwhole, hpart, -⟩ := h.flush hd
  have hfill := h.fill_eq_mod hd
  have haligned : s.totalBits.toNat % 8 = 0 → u.byteCount = s.byteCount ∧ u.padding = 0 ∧ u.buf = s.buf := fun h8 => by
    obtain ⟨hbc, hbuf⟩ := hwhole (fill_toNat_eq_zero_iff.1 (hfill.trans h8))
    exact ⟨hbc, BitVec.eq_of_toNat_eq (by rw [hpad, hfill, h8]; rfl), hbuf⟩
  refine ⟨u, (exec_fin_ok he hd).trans hu, by rw [hframe], by rw [hframe]; exact he, fun h0 => ?_, haligned,
    fun h7 => ?_, fun h1 => ?_, fun h8 hzero => ?_⟩
  · obtain ⟨-, hp, hbuf⟩ := haligned (by rw [h0]; rfl)
    exact ⟨BitVec.eq_of_toNat_eq (by rw [hcount, h0]; rfl), hp, hbuf⟩
  · exact BitVec.eq_of_toNat_eq (by rw [hpad, h7]; rfl)
  · exact BitVec.eq_of_toNat_eq (by rw [hpad, h1]; rfl)
  · rw [← hzero]
    exact hpart fun h0 => h8 (hfill.symm.trans (fill_toNat_eq_zero_iff.2 h0))

/-- Settles O14: `Invariant.flush` with FILL = TOTAL_BITS mod 8. -/
theorem finalizePaddingLaw : Obligations.FinalizePaddingLaw := by
  unfold Obligations.FinalizePaddingLaw
  intro s h he hd
  obtain ⟨u, hu, -, hframe, hcount, hpad, -⟩ := h.flush hd
  rw [h.fill_eq_mod hd] at hpad
  have htotal : u.totalBits = s.totalBits := by rw [hframe]
  rw [← htotal] at hcount hpad
  refine ⟨u, (exec_fin_ok he hd).trans hu, htotal, hpad, ?_, hcount⟩
  rw [← BitVec.toNat_inj, hpad, show (0 : BitVec 3).toNat = 0 from rfl]
  omega

/-! ### The packed bytes -/

/-- Settles O15: the flush leaves the bits of the stream and then PADDING zeros, so the bytes' bits are cut where the stream
ends. -/
theorem packedBytesGiveTheStreamBack : Obligations.PackedBytesGiveTheStreamBack := by
  unfold Obligations.PackedBytesGiveTheStreamBack
  intro s h he hd
  obtain ⟨u, hu, -⟩ := h.flush hd
  obtain ⟨-, hbits⟩ := h.flush_stream hd hu
  have hlen : 8 * u.byteCount.toNat - u.padding.toNat = s.stream.length := by
    have := congrArg List.length hbits
    rw [bitsOfBytes_length, State.packedBytes_length, List.length_append, List.length_replicate] at this
    omega
  refine ⟨u, (exec_fin_ok he hd).trans hu, ?_, ?_⟩
  · rw [unpack, State.packedBytes_length, hlen, hbits, List.take_left]
  · rw [hlen, hbits, List.drop_left]

/-- PUSH commands of at most k bits each carry at most k bits per command. -/
theorem streamOf_length_le {k : Nat} {ps : List (BitVec 6 × Word)} (h : ∀ p ∈ ps, p.1.toNat ≤ k) :
    (streamOf ps).length ≤ k * ps.length := by
  induction ps with
  | nil => simp [streamOf]
  | cons p ps ih =>
    obtain ⟨hp, hps⟩ := List.forall_mem_cons.1 h
    have := ih hps
    simp only [streamOf, List.flatMap_cons, List.length_append, pushBits_length, List.length_cons, Nat.mul_succ] at *
    omega

/-- Settles O47: by the `pack` contract BYTE_COUNT = ceil(|S| / 8), and |S| ≤ 8 N. -/
theorem shortCodesDoNotExpand : Obligations.ShortCodesDoNotExpand := by
  unfold Obligations.ShortCodesDoNotExpand
  intro s ps h hl hshort hfit
  obtain ⟨u, hu, -, -, hcount, -, -, herr, -⟩ := packerRefinesThePackContract s ps h hl hfit
  have hlen := streamOf_length_le hshort
  refine ⟨u, hu, herr, ?_⟩
  rw [hcount, ceilDiv8]
  omega

/-! ### Concatenation -/

/-- PART is its stream bits and then zeros (R41, R42). -/
theorem Invariant.part_bits {s : State} (h : Invariant s) :
    bitsOf 8 s.part.toNat = s.partialBits ++ List.replicate (8 - s.fill.toNat) false := by
  have hfill := s.fill.isLt
  rw [← bitsOf_drop_of_aligned (n := 8) (by omega) h.part_aligned, Nat.sub_sub_self (by omega), State.partialBits,
    List.take_append_drop]

/-- Under the invariant a byte below BYTE_COUNT is the packed byte at its index (R25). -/
theorem Invariant.read_eq_packedBytes {s : State} (h : Invariant s) {i : Nat} (hi : i < s.byteCount.toNat) :
    Memory.read i s.buf = s.packedBytes[i]? := by
  obtain ⟨b, hb, hpacked⟩ := h.packedBytes_getElem? hi
  rw [hb, hpacked]

/-- An open state is determined by its stream, its bytes from BYTE_COUNT on and the fields PUSH leaves alone (R42). -/
theorem Invariant.eq_of_stream {u v : State} (hu : Invariant u) (hv : Invariant v) (hd : u.done = false)
    (hframe : v = { u with
      fill := v.fill, part := v.part, byteCount := v.byteCount, totalBits := v.totalBits, buf := v.buf })
    (hstream : u.stream = v.stream)
    (hstale : ∀ a, u.byteCount.toNat ≤ a → v.byteCount.toNat ≤ a → Memory.read a u.buf = Memory.read a v.buf) :
    u = v := by
  have hdv : v.done = false := by rw [hframe]; exact hd
  have htotal : u.totalBits.toNat = v.totalBits.toNat := by rw [← stream_length hu, hstream, stream_length hv]
  have hcu := hu.open_count hd
  have hcv := hv.open_count hdv
  have hfu := u.fill.isLt
  have hfv := v.fill.isLt
  have hcount : u.byteCount.toNat = v.byteCount.toNat := by omega
  have hfill : u.fill.toNat = v.fill.toNat := by omega
  obtain ⟨hbits, hpartial⟩ : bitsOfBytes u.packedBytes = bitsOfBytes v.packedBytes ∧ u.partialBits = v.partialBits := by
    rw [hu.open_stream hd, hv.open_stream hdv] at hstream
    exact List.append_inj hstream (by simp [State.packedBytes_length, hcount])
  have hpart : u.part = v.part := by
    refine BitVec.eq_of_toNat_eq (bitsOf_injective u.part.isLt v.part.isLt ?_)
    rw [hu.part_bits, hv.part_bits, hpartial, hfill]
  have hbuf : u.buf = v.buf := by
    refine Memory.ext hu.buf_wf hv.buf_wf fun i => ?_
    by_cases hi : i < u.byteCount.toNat
    · rw [hu.read_eq_packedBytes hi, hv.read_eq_packedBytes (hcount ▸ hi), bytes_inj _ _ hbits]
    · exact hstale i (by omega) (by omega)
  rw [hframe, ← BitVec.eq_of_toNat_eq hfill, ← hpart, ← BitVec.eq_of_toNat_eq hcount, ← BitVec.eq_of_toNat_eq htotal,
    ← hbuf]

/-- Two lists of PUSH commands that carry the same stream leave the same open state (R107). -/
theorem Invariant.pushes_congr {s : State} (h : Invariant s) (he : s.err = false) (hd : s.done = false)
    {ps qs : List (BitVec 6 × Word)} (hp : AllLegal ps) (hq : AllLegal qs) (hpq : streamOf ps = streamOf qs)
    (hc : ceilDiv8 (s.totalBits.toNat + (streamOf ps).length) ≤ s.cfg.bufBytes) :
    ∃ u, execAll (pushes ps) s = .next u ∧ execAll (pushes qs) s = .next u ∧ Invariant u ∧ u.err = false ∧
      u.done = false := by
  obtain ⟨u, hu, hinvu, hstreamu, hframeu, -, hstaleu⟩ := pushes_run ps h he hd hp hc
  obtain ⟨v, hv, hinvv, hstreamv, hframev, -, hstalev⟩ := pushes_run qs h he hd hq (hpq ▸ hc)
  have hdu : u.done = false := by rw [hframeu]; exact hd
  obtain rfl : u = v := hinvu.eq_of_stream hinvv hdu (by rw [hframeu]; exact hframev)
    (by rw [hstreamu, hstreamv, hpq]) fun a hau hav => by rw [hstaleu a hau, hstalev a hav]
  exact ⟨u, hu, hv, hinvu, by rw [hframeu]; exact he, hdu⟩

/-- Settles O44: `Invariant.pushes_congr`, of a list of two and a list of one, and of any two lists; then one flush of the one
state. -/
theorem concatenationLaw : Obligations.ConcatenationLaw := by
  unfold Obligations.ConcatenationLaw
  refine ⟨fun s lc ld l c d e h he hd hlc hld hl h32 hbits hc => ?_, fun s ps qs h he hd hp hq hpq hc => ?_⟩
  · obtain ⟨hc32, hd32, hl1⟩ : lc.toNat ≤ 32 ∧ ld.toNat ≤ 32 ∧ 1 ≤ l.toNat := by omega
    have htwo : AllLegal [(lc, c), (ld, d)] :=
      List.forall_mem_cons.2 ⟨⟨hlc, hc32⟩, List.forall_mem_singleton.2 ⟨hld, hd32⟩⟩
    have hone : AllLegal [(l, e)] := List.forall_mem_singleton.2 ⟨hl1, h32⟩
    have hstream : streamOf [(lc, c), (ld, d)] = streamOf [(l, e)] := by simp [streamOf, hbits]
    have hlen : (streamOf [(lc, c), (ld, d)]).length = l.toNat := by simp [streamOf, hl]
    obtain ⟨u, hu, hv, -, herr, -⟩ := h.pushes_congr he hd htwo hone hstream (by rw [hlen]; exact hc)
    obtain ⟨v, hv', -⟩ := h.exec (.push l e)
    obtain rfl : v = u := by
      have := (execAll_singleton_of_next hv').symm.trans hv
      cases this; rfl
    exact ⟨v, hu, hv', herr⟩
  · obtain ⟨u, hu, hv, hinv, herr, hdone⟩ := h.pushes_congr he hd hp hq hpq hc
    obtain ⟨v, hflush, -, hframe, -⟩ := hinv.flush hdone
    have hfin : execAll [.finalize] u = .next v :=
      execAll_singleton_of_next ((exec_fin_ok herr hdone).trans hflush)
    exact ⟨⟨u, hu, hv, herr⟩, v, (execAll_append_of_next hu _).trans hfin, (execAll_append_of_next hv _).trans hfin,
      by rw [hframe], by rw [hframe]; exact herr⟩

/-! ### Determinism -/

/-- The state without the model's own fields, as `SameObservably` compares it (logs 3, 4, 5). -/
def State.forgetHost (s : State) : State := { s with inputs := [], rdData := 0, draws := 0 }

/-- What a host observes is what `Indistinguishable` says of the states without those fields. -/
theorem sameObservably_iff {s t : State} : SameObservably s t ↔ Indistinguishable s.forgetHost t.forgetHost := Iff.rfl

/-- The invariant does not speak of them. -/
theorem Invariant.forgetHost {s : State} (h : Invariant s) : Invariant s.forgetHost :=
  h.of_ports s.inFlight [] s.rst 0 0

/-- Indistinguishable states stay so without them. -/
theorem Indistinguishable.forgetHost {s t : State} (h : Indistinguishable s t) :
    Indistinguishable s.forgetHost t.forgetHost := by
  obtain ⟨ht, hbuf⟩ := h
  exact ⟨by rw [ht]; rfl, hbuf⟩

/-- Two states equal but for the model's own fields. -/
def SameMachine (s t : State) : Prop := s.forgetHost = t.forgetHost

/-- Whatever values two reads sample, they change the model's own fields alone (R60). -/
theorem sampleRead_forgetHost (v w : Word) (s : State) : SameMachine (sampleRead v s) (sampleRead w s.forgetHost) := by
  rw [sampleRead_frame v, sampleRead_frame w]; rfl

/-- The barrel shifter does not look at the model's own fields. -/
theorem appendBits_forgetHost {n code : Nat} {s : State} (hroom : s.byteCount.toNat + (s.fill.toNat + n) / 8 ≤ s.cfg.bufBytes) :
    BothNext SameMachine (appendBits n code s) (appendBits n code s.forgetHost) := by
  obtain ⟨m, hm, hs⟩ := appendBits_room (code := code) hroom
  obtain ⟨m', hm', hs'⟩ := appendBits_room (code := code) (s := s.forgetHost) hroom
  obtain rfl : m = m' := Option.some.inj (hm.symm.trans hm')
  rw [hs, hs']
  exact .next rfl

/-- The flush does not look at the model's own fields. -/
theorem flush_forgetHost {s : State} (hroom : s.fill ≠ 0 → s.byteCount.toNat < s.cfg.bufBytes) :
    BothNext SameMachine (flush s) (flush s.forgetHost) := by
  refine .ite (fun _ => .next rfl) fun hf => ?_
  simp only [bufWrite, State.forgetHost, hroom hf, if_true]
  exact .next rfl

/-- No instruction looks at the model's own fields (logs 3, 4, 5). -/
theorem exec_forgetHost {s : State} (h : Invariant s) (i : Instr) :
    BothNext SameMachine (exec i s) (exec i s.forgetHost) := by
  cases i with
  | nop => exact .next rfl
  | push len data =>
    exact .ite (fun _ => .next rfl) fun _ =>
      .ite (fun _ => .next rfl) fun hd =>
      .ite (fun _ => .next rfl) fun _ =>
      .ite (fun _ => .next rfl) fun hc =>
      appendBits_forgetHost (h.room (Bool.eq_false_iff.2 hd) (Nat.le_of_not_lt hc))
  | finalize =>
    exact .ite (fun _ => .next rfl) fun _ =>
      .ite (fun _ => .next rfl) fun hd =>
      flush_forgetHost (h.fill_pos_room (Bool.eq_false_iff.2 hd))
  | clear => exact .next rfl
  | reserved47 op => exact .ite (fun _ => .next rfl) fun _ => .next rfl
  | reserved8F op => exact .ite (fun _ => .next rfl) fun _ => .next rfl
  | readReg x => exact .next (sampleRead_forgetHost _ _ s)
  | readBuf x => exact .next (sampleRead_forgetHost _ _ s)

/-- One instruction keeps two states the same for a host (R115). -/
theorem SameObservably.exec {s t : State} (h : SameObservably s t) (hs : Invariant s) (ht : Invariant t) (i : Instr) :
    BothNext SameObservably (exec i s) (exec i t) := by
  obtain ⟨u, u₀, hu, hu₀, hsame⟩ := exec_forgetHost hs i
  obtain ⟨v, v₀, hv, hv₀, hsame'⟩ := exec_forgetHost ht i
  obtain ⟨hbuf, hagree⟩ := sameObservably_iff.1 h
  obtain ⟨u₁, v₁, hu₁, hv₁, hstale⟩ := exec_stale hagree hs.forgetHost i
  rw [← hbuf] at hv₁
  obtain rfl : u₀ = u₁ := by rw [hu₀] at hu₁; cases hu₁; rfl
  obtain rfl : v₀ = v₁ := by rw [hv₀] at hv₁; cases hv₁; rfl
  refine ⟨u, v, hu, hv, sameObservably_iff.2 ?_⟩
  rw [hsame, hsame']
  exact hstale.forgetHost

/-- … and so does a run. -/
theorem SameObservably.execAll (is : List Instr) : ∀ {s t : State}, SameObservably s t → Invariant s → Invariant t →
    BothNext SameObservably (execAll is s) (execAll is t) := by
  induction is with
  | nil => exact fun h _ _ => .next h
  | cons i is ih =>
    intro s t h hs ht
    obtain ⟨u, v, hu, hv, huv⟩ := h.exec hs ht i
    obtain ⟨u', hu', hinvu⟩ := hs.exec i
    obtain ⟨v', hv', hinvv⟩ := ht.exec i
    obtain rfl : u = u' := by rw [hu] at hu'; cases hu'; rfl
    obtain rfl : v = v' := by rw [hv] at hv'; cases hv'; rfl
    simp only [Machine.execAll, hu, hv]
    exact ih huv hinvu hinvv

/-- Idle packers of one capacity at reset are the same for a host: no byte is below BYTE_COUNT (R46, R115). -/
theorem AtReset.sameObservably {s t : State} (hs : AtReset s) (ht : AtReset t) (hcfg : s.cfg = t.cfg)
    (hrs : cmdReady s = true) (hrt : cmdReady t = true) : SameObservably s t := by
  obtain ⟨hrst, hfl⟩ := (cmdReady_iff s).1 hrs
  obtain ⟨hrst', hfl'⟩ := (cmdReady_iff t).1 hrt
  have ⟨_, _, hcount, _⟩ := hs
  have hnone : s.byteCount.toNat = 0 := by rw [hcount]; rfl
  refine sameObservably_iff.2 ⟨?_, fun i (hi : i < s.byteCount.toNat) => by omega⟩
  simp_all [State.forgetHost]

/-- Settles O50: at reset, and so after CLEAR, the two states are the same for a host, and a run keeps them so. -/
theorem runFromClearDependsOnCommandsAlone : Obligations.RunFromClearDependsOnCommandsAlone := by
  unfold Obligations.RunFromClearDependsOnCommandsAlone
  intro s t is hs ht hcfg hrs hrt
  refine ⟨?_, fun hs₀ ht₀ => (hs₀.sameObservably ht₀ hcfg hrs hrt).execAll is hs ht⟩
  exact ((clearStream_atReset s).sameObservably (clearStream_atReset t) hcfg hrs hrt).execAll is hs.clearStream
    ht.clearStream

end Sys2Proof.Machine
end

section
/-! SUPPORT. Proofs of the statements of 41_control_commands.md: the decoder's equations for OP 0 and 3 (`decodeCommand_nop`,
`decodeCommand_clear`), the registers that CLEAR leaves (`clearStream_atReset`), and the writers of ERR (`exec_lowers_flag`). -/

namespace Sys2Proof.Machine

/-- Settles O17: CLEAR ends in `clearStream s`, and of the instructions only CLEAR lowers ERR. -/
theorem clearResetsTheStreamAndAloneClearsErrors : Obligations.ClearResetsTheStreamAndAloneClearsErrors := by
  unfold Obligations.ClearResetsTheStreamAndAloneClearsErrors
  refine ⟨by decide, by decide, by decide, rfl, fun w => decodeCommand_clear, fun s => ⟨?_, ?_⟩⟩
  · exact ⟨clearStream s, exec_clear s, rfl, clearStream_atReset s, clearStream_stream s⟩
  · exact fun i u hs hu hclear => exec_lowers_flag hu (.inr ⟨hs, hclear⟩)

/-- Settles O16: every word with OP 0 decodes to NOP, which keeps the state. -/
theorem nopChangesNothing : Obligations.NopChangesNothing := by
  unfold Obligations.NopChangesNothing
  refine ⟨by decide, by decide, rfl, fun s => ⟨exec_nop s, fun w hop => ?_⟩⟩
  rw [decodeCommand_nop hop, exec_nop, execNop]

end Sys2Proof.Machine
end

section
/-! SUPPORT. Proofs of the statements of 42_host_reads.md. A read's request is its encoding as a number, so the decoder reads it back
by the round trip (O4). READ_REG (O25) is one equation of `registerValue` per row of the register map; READ_BUF (O26) is the two
branches of `bufferValue`, and the byte below BYTE_COUNT has been written by the invariant. -/

namespace Sys2Proof.Machine

/-! ### Requests -/

/-- The request of READ_REG is its index (R82). -/
theorem encode_readReg (i : Word) : encode (.readReg i) = .read (BitVec.ofNat 33 i.toNat) := by
  rw [encode, readWord_eq_ofNat]
  simp

/-- The request of READ_BUF is its index with bit 32 set (R82). -/
theorem encode_readBuf (i : Word) : encode (.readBuf i) = .read (BitVec.ofNat 33 (2 ^ 32 + i.toNat)) := by
  rw [encode, readWord_eq_ofNat]
  simp

theorem decodeRead_readReg (i : Word) : decodeRead (BitVec.ofNat 33 i.toNat) = .readReg i := by
  have h := Laws.RoundTrip.readReg i rfl
  rwa [encode_readReg] at h

theorem decodeRead_readBuf (i : Word) : decodeRead (BitVec.ofNat 33 (2 ^ 32 + i.toNat)) = .readBuf i := by
  have h := Laws.RoundTrip.readBuf i rfl
  rwa [encode_readBuf] at h

/-! ### READ_REG: the rows of the register map (R35, R130) that `registerValue_id` and `registerValue_capacity` do not give -/

@[simp] theorem registerValue_errCode (s : State) : registerValue 0x1 s = s.errCode.setWidth 32 := rfl
@[simp] theorem registerValue_byteCount (s : State) : registerValue 0x2 s = s.byteCount := rfl
@[simp] theorem registerValue_totalBits (s : State) : registerValue 0x3 s = s.totalBits := rfl
@[simp] theorem registerValue_fill (s : State) : registerValue 0x4 s = s.fill.setWidth 32 := rfl
@[simp] theorem registerValue_part (s : State) : registerValue 0x5 s = s.part.setWidth 32 := rfl
@[simp] theorem registerValue_padding (s : State) : registerValue 0x6 s = s.padding.setWidth 32 := rfl
@[simp] theorem registerValue_status (s : State) : registerValue 0x8 s = statusWord s := rfl

/-- An index from 0x9 on reads 0 (R38). -/
theorem registerValue_unmapped {i : Word} (h : 0x9 ≤ i.toNat) (s : State) : registerValue i s = 0 := by
  unfold registerValue
  split
  case h_10 => rfl
  all_goals omega

/-- STATUS as a number: ERR above DONE (R36). -/
theorem statusWord_toNat (s : State) : (statusWord s).toNat = 2 * s.err.toNat + s.done.toNat := by
  rw [statusWord, BitVec.toNat_setWidth_of_le (by decide), BitVec.toNat_append,
    ← Nat.shiftLeft_add_eq_or_of_lt (BitVec.isLt _), Nat.shiftLeft_eq, BitVec.toNat_ofBool, BitVec.toNat_ofBool]
  omega

/-- Settles O25: `exec_readReg_ready`, and the register map row by row. -/
theorem readRegReturnsTheRegisterMap : Obligations.ReadRegReturnsTheRegisterMap := by
  unfold Obligations.ReadRegReturnsTheRegisterMap
  refine ⟨fun i => ⟨decodeRead_readReg i, by rw [assembleLine_rdreg, encode_readReg]⟩, by decide, rfl, fun i s hr =>
    ⟨registerValue i s, exec_readReg_ready hr i, fun h => ?_, fun h => ?_, fun h => ?_, fun h => ?_, fun h => ?_, fun h => ?_,
      fun h => ?_, fun h => ?_, fun h => ?_, fun h => registerValue_unmapped h s⟩⟩
  · obtain rfl : i = 0x0 := BitVec.eq_of_toNat_eq h
    exact registerValue_id s
  · obtain rfl : i = 0x1 := BitVec.eq_of_toNat_eq h
    rw [registerValue_errCode, BitVec.toNat_setWidth_of_le (by decide)]
  · obtain rfl : i = 0x2 := BitVec.eq_of_toNat_eq h
    exact registerValue_byteCount s
  · obtain rfl : i = 0x3 := BitVec.eq_of_toNat_eq h
    exact registerValue_totalBits s
  · obtain rfl : i = 0x4 := BitVec.eq_of_toNat_eq h
    rw [registerValue_fill, BitVec.toNat_setWidth_of_le (by decide)]
  · obtain rfl : i = 0x5 := BitVec.eq_of_toNat_eq h
    rw [registerValue_part, BitVec.toNat_setWidth_of_le (by decide)]
  · obtain rfl : i = 0x6 := BitVec.eq_of_toNat_eq h
    rw [registerValue_padding, BitVec.toNat_setWidth_of_le (by decide)]
  · obtain rfl : i = 0x7 := BitVec.eq_of_toNat_eq h
    exact registerValue_capacity s
  · obtain rfl : i = 0x8 := BitVec.eq_of_toNat_eq h
    rw [registerValue_status, statusWord_toNat]

/-! ### READ_BUF -/

/-- READ_BUF while cmd_ready = 1 samples the buffer's value (R132). -/
theorem exec_readBuf_ready {s : State} (h : cmdReady s = true) (i : Word) :
    exec (.readBuf i) s = .next { s with rdData := bufferValue i s } := by
  rw [exec_readBuf, execReadBuf, sampleRead_ready _ _ h]

/-- From BYTE_COUNT on the buffer reads 0 (R132). -/
theorem bufferValue_of_le {i : Word} {s : State} (h : s.byteCount.toNat ≤ i.toNat) : bufferValue i s = 0 := by
  rw [bufferValue, if_neg (Nat.not_lt.2 h)]

/-- Below BYTE_COUNT the buffer reads the byte last written there (R25, R53, R132). -/
theorem Invariant.bufferValue_written {s : State} (h : Invariant s) {i : Word} (hi : i.toNat < s.byteCount.toNat) :
    ∃ b, Memory.read i.toNat s.buf = some b ∧ (bufferValue i s).toNat = b.toNat := by
  obtain ⟨b, hb⟩ := Option.isSome_iff_exists.1 (h.buf_written i.toNat hi)
  refine ⟨b, hb, ?_⟩
  rw [bufferValue, if_pos hi, bufRead_of_some hb, BitVec.toNat_setWidth_of_le (by decide)]

/-- Settles O26: a written byte below BYTE_COUNT, 0 from there on, and BYTE_COUNT never exceeds BUF_BYTES. -/
theorem readBufReturnsWrittenBytesOnly : Obligations.ReadBufReturnsWrittenBytesOnly := by
  unfold Obligations.ReadBufReturnsWrittenBytesOnly
  refine ⟨fun i => ⟨decodeRead_readBuf i, by rw [assembleLine_rdbuf, encode_readBuf]⟩, by decide, rfl, fun i s h hr =>
    ⟨bufferValue i s, exec_readBuf_ready hr i, h.bufferValue_written, bufferValue_of_le, fun hcap => ?_⟩⟩
  exact bufferValue_of_le (h.byteCount_le.trans hcap)

end Sys2Proof.Machine
end

section
/-! SUPPORT. Proofs of the statements of 60_exceptions.md, and of R178. The causes of an error (R162) are one predicate, `Causes`: a
command whose cause holds records that error (`exec_of_causes`), and an error is recorded only by a cause (`exec_error_causes`);
O19 and O20 are read off the two. That an error is sticky (O22) is R47's list of writers over one instruction, and a settling turn.
Well-formed use (O48) is a run of PUSH commands that fit: NOP commands drop out of a run (`execAll_map_pushOrNop`). -/

namespace Sys2Proof.Machine

/-! ### Well-formed use -/

/-- A run of PUSH and NOP commands is the run of its PUSH commands (R120). -/
theorem execAll_map_pushOrNop (cs : List (Option (BitVec 6 × Word))) (s : State) :
    execAll (cs.map pushOrNop) s = execAll (pushes (cs.filterMap id)) s := by
  induction cs generalizing s with
  | nil => rfl
  | cons c cs ih =>
    cases c with
    | none => exact ih s
    | some p =>
      simp only [List.map_cons, pushOrNop, List.filterMap_cons_some (f := id) rfl, pushes, execAll]
      cases exec (.push p.1 p.2) s with
      | next t => exact ih t
      | fault f => rfl
      | refused r => rfl

/-- FINALIZE of an open stream without error completes, and records none (R106, R110). -/
theorem Invariant.finalize_open {s : State} (h : Invariant s) (he : s.err = false) (hd : s.done = false) :
    ∃ u, Machine.exec .finalize s = .next u ∧ Invariant u ∧ u.err = false := by
  obtain ⟨u, hu, hinv, hframe, -⟩ := h.flush hd
  exact ⟨u, (exec_fin_ok he hd).trans hu, hinv, by rw [hframe]; exact he⟩

/-- Well-formed use from a state at reset completes without error (R169, R196). -/
theorem AtReset.wellFormedUse {s : State} (hreset : AtReset s) (h : Invariant s) {cs : List (Option (BitVec 6 × Word))}
    {last : List Instr} (hl : AllLegal (cs.filterMap id)) (hlast : last = [] ∨ last = [.finalize])
    (hfit : (streamOf (cs.filterMap id)).length ≤ 8 * s.cfg.bufBytes) :
    ∃ u, execAll (cs.map pushOrNop ++ last) s = .next u ∧ u.err = false ∧ u.errCode = 0 := by
  obtain ⟨-, -, -, hbits, -, hd, he, -⟩ := hreset
  have hcap : ceilDiv8 (s.totalBits.toNat + (streamOf (cs.filterMap id)).length) ≤ s.cfg.bufBytes := by
    have hzero : s.totalBits.toNat = 0 := by rw [hbits]; rfl
    rw [hzero, ceilDiv8]
    omega
  obtain ⟨t, ht, hinv, -, hframe, -⟩ := pushes_run _ h he hd hl hcap
  have het : t.err = false := by rw [hframe]; exact he
  have hdt : t.done = false := by rw [hframe]; exact hd
  have hrun : execAll (cs.map pushOrNop) s = .next t := (execAll_map_pushOrNop cs s).trans ht
  rw [execAll_append_of_next hrun]
  obtain rfl | rfl := hlast
  · exact ⟨t, rfl, het, hinv.err_iff.1 het⟩
  · obtain ⟨u, hu, hinvu, heu⟩ := hinv.finalize_open het hdt
    exact ⟨u, execAll_singleton_of_next hu, heu, hinvu.err_iff.1 heu⟩

/-- Settles O48: CLEAR leaves a state at reset, and from there every PUSH fits. -/
theorem wellFormedUseRecordsNoError : Obligations.WellFormedUseRecordsNoError := by
  unfold Obligations.WellFormedUseRecordsNoError
  intro s cs last h hlegal hlast hfit
  have hl : AllLegal (cs.filterMap id) := fun p hp => hlegal (some p) (by simpa using hp) p rfl
  exact ⟨(clearStream_atReset s).wellFormedUse h.clearStream hl hlast hfit,
    fun hreset => hreset.wellFormedUse h hl hlast hfit⟩

/-! ### The causes of an error -/

/-- Which command in which state, ERR = 0, records an error (R162). -/
def Causes (i : Instr) (s : State) : ErrorCode → Prop
  | .op => (∃ op, i = .reserved47 op) ∨ ∃ op, i = .reserved8F op
  | .len => ∃ len data, i = .push len data ∧ s.done = false ∧ (len.toNat = 0 ∨ 33 ≤ len.toNat)
  | .done => s.done = true ∧ (i = .finalize ∨ ∃ len data, i = .push len data)
  | .ovf => ∃ len data, i = .push len data ∧ s.done = false ∧ 1 ≤ len.toNat ∧ len.toNat ≤ 32 ∧
      s.cfg.bufBytes < (s.totalBits.toNat + len.toNat + 7) / 8

/-- FINALIZE after FINALIZE records E_DONE (R110). -/
theorem exec_finalize_of_done {s : State} (he : s.err = false) (hd : s.done = true) :
    exec .finalize s = .next (recordError .done s) := by
  rw [exec_finalize, execFinalize, unlessErr_of_no_err he, if_pos hd, raiseError_eq]

/-- Where the cause of an error holds, the error is recorded (R162, R163). -/
theorem exec_of_causes {c : ErrorCode} {i : Instr} {s : State} (he : s.err = false) (hc : Causes i s c) :
    exec i s = .next (recordError c s) := by
  cases c with
  | op => obtain ⟨op, rfl⟩ | ⟨op, rfl⟩ := hc <;> exact unlessErr_of_no_err he
  | len =>
    obtain ⟨len, data, rfl, hd, hl⟩ := hc
    exact exec_push_of_not_lenLegal he hd (by omega)
  | done =>
    obtain ⟨hd, rfl | ⟨len, data, rfl⟩⟩ := hc
    · exact exec_finalize_of_done he hd
    · exact exec_push_of_done he hd
  | ovf =>
    obtain ⟨len, data, rfl, hd, h1, h32, hcap⟩ := hc
    exact exec_push_of_overflow he hd ⟨h1, h32⟩ hcap

/-- An instruction that ends with ERR = 1 from ERR = 0 did nothing but record an error whose cause holds (R162, R163). -/
theorem exec_error_causes {i : Instr} {s u : State} (he : s.err = false) (h : exec i s = .next u) (hu : u.err = true) :
    ∃ c, Causes i s c ∧ u = recordError c s := by
  obtain ⟨c, -, rfl, hc⟩ | ⟨hs, -⟩ | ⟨-, rfl⟩ | ⟨-, rfl⟩ | ⟨v, rfl, -⟩ | ⟨-, -, -, hf⟩ |
    ⟨-, -, l, d, -, -, -, ha⟩ := exec_inv h
  · refine ⟨c, ?_, rfl⟩
    obtain ⟨rfl, hi⟩ | ⟨rfl, hd, hi⟩ | ⟨rfl, hd, l, d, rfl, hl⟩ | ⟨rfl, hd, l, d, rfl, ⟨h1, h32⟩, hcap⟩ := hc
    · exact hi
    · exact ⟨hd, hi⟩
    · exact ⟨l, d, rfl, hd, by omega⟩
    · exact ⟨l, d, rfl, hd, h1, h32, hcap⟩
  · simp [he] at hs
  · simp [he] at hu
  · simp at hu
  · simp [he] at hu
  · rw [flush_frame hf] at hu; simp [he] at hu
  · rw [append_frame ha] at hu; simp [he] at hu

/-- ERRCODE tells the errors apart (R161). -/
theorem errorBits_injective : Function.Injective errorBits := by
  intro c d
  cases c <;> cases d <;> decide

/-- Each error is recorded exactly where its cause holds (R162). -/
theorem exec_records_iff {i : Instr} {s u : State} (he : s.err = false) (h : exec i s = .next u) (c : ErrorCode) :
    (u.err = true ∧ u.errCode = errorBits c) ↔ Causes i s c := by
  constructor
  · rintro ⟨hu, hcode⟩
    obtain ⟨d, hd, rfl⟩ := exec_error_causes he h hu
    obtain rfl : d = c := errorBits_injective hcode
    exact hd
  · intro hc
    rw [exec_of_causes he hc] at h; cases h
    exact ⟨rfl, rfl⟩

/-- Settles O19: an error is recorded by `recordError`, whose codes are R161's. -/
theorem errorsArePrecise : Obligations.ErrorsArePrecise := by
  unfold Obligations.ErrorsArePrecise
  intro i s u he h hu
  obtain ⟨c, -, rfl⟩ := exec_error_causes he h hu
  exact ⟨rfl, by cases c <;> simp [errorBits]⟩

/-- Settles O20: `exec_records_iff` for each of the four errors; what NOP, CLEAR and the reads leave has ERR = 0. -/
theorem errorsHaveExactlyTheirCauses : Obligations.ErrorsHaveExactlyTheirCauses := by
  unfold Obligations.ErrorsHaveExactlyTheirCauses
  intro i s u he h
  have hiff := exec_records_iff he h
  refine ⟨hiff .op, hiff .len, hiff .done, hiff .ovf, ?_⟩
  rintro (rfl | rfl | ⟨x, rfl⟩ | ⟨x, rfl⟩) <;> cases h
  · exact he
  · exact clearStream_err s
  · exact (sampleRead_err _ s).trans he
  · exact (sampleRead_err _ s).trans he

/-! ### A recorded error stays -/

/-- Settles O21: `unlessErr` ignores the stream commands and the reserved opcodes; CLEAR and the reads are not under it. -/
theorem stickyErrorFreezesTheStream : Obligations.StickyErrorFreezesTheStream := by
  unfold Obligations.StickyErrorFreezesTheStream
  intro s he
  exact ⟨fun _ _ => exec_push_of_err he, unlessErr_of_err he, exec_nop s, fun _ => unlessErr_of_err he,
    fun _ => unlessErr_of_err he, ⟨clearStream s, exec_clear s, clearStream_atReset s⟩, exec_readReg_ready, exec_readBuf_ready⟩

/-- Of the instructions only CLEAR changes ERR or ERRCODE once an error is recorded (R164, R168). -/
theorem exec_keeps_error {i : Instr} {s u : State} (h : exec i s = .next u) (he : s.err = true) (hi : i ≠ .clear) :
    u.err = true ∧ u.errCode = s.errCode := by
  obtain ⟨-, -, hcode, -⟩ := flagsHaveOnlyTheirWriters i s u h
  constructor
  · by_contra hu
    exact hi (exec_lowers_flag h (.inr ⟨he, by simpa using hu⟩))
  · by_contra hu
    obtain hclear | ⟨hs, -⟩ := hcode hu
    · exact hi hclear
    · simp [he] at hs

/-- Settles O22: a step runs CLEAR, or another instruction, or settles, which resets the packer or moves only the pins. -/
theorem theFirstErrorWins : Obligations.TheFirstErrorWins := by
  unfold Obligations.TheFirstErrorWins
  intro s t h he
  obtain ⟨i, s', hn, hstep⟩ | ⟨s', hn, hstep⟩ := step_cases s
  · by_cases hi : i = .clear
    · subst hi; exact .inr (.inl ⟨s', hn⟩)
    · obtain ⟨hs', -⟩ := nextTurn_run hn
      obtain ⟨herr, hcode⟩ := exec_keeps_error (hstep ▸ h) (by rw [hs']; exact he) hi
      exact .inl ⟨herr, by rw [hcode, hs']⟩
  · obtain rfl : s' = t := by rw [hstep] at h; cases h; rfl
    obtain ⟨hrst, -⟩ | ⟨hkeep, -⟩ := nextTurn_settle hn
    · exact .inr (.inr hrst)
    · exact .inl (by rw [hkeep]; exact ⟨he, rfl⟩)

/-! ### The idle packer -/

/-- With rst = 0 and no command in flight, the clock alone changes nothing (R178). -/
theorem idleTurn_holds {s : State} (hrst : s.rst = false) (hfl : s.inFlight = none) : idleTurn s = .settle s := by
  simp [idleTurn, hrst, hfl]

/-- Settles O34: the turn of an empty list of actions, and of `idle`, is the clock's alone. -/
theorem idlePackerHoldsItsState : Obligations.IdlePackerHoldsItsState := by
  unfold Obligations.IdlePackerHoldsItsState
  intro s rest hready
  obtain ⟨hrst, hfl⟩ := (cmdReady_iff s).1 hready
  exact ⟨fun hin => step_settle ((nextTurn_nil hin).trans (idleTurn_holds hrst hfl)),
    fun hin => step_settle ((nextTurn_idle hin).trans (idleTurn_holds hrst hfl))⟩

end Sys2Proof.Machine
end

section
/-! SUPPORT. Proofs of the statements of 70_reset_and_hazards.md. A turn that raises rst, and a command met by an edge with rst = 1,
settle in `resetPacker` (O29, O30). A read taken while cmd_ready = 0 takes a free value and nothing else changes
(`exec_read_hazard`), so a list of reads taken while a command is in flight leaves that command to complete as it would have at
once (O35, by induction on the list of reads). -/

namespace Sys2Proof.Machine

/-! ### Reads while cmd_ready = 0 -/

/-- cmd_ready is 0 exactly while a command is in flight or rst = 1 (R71). -/
theorem cmdReady_eq_false_iff (s : State) : cmdReady s = false ↔ s.inFlight.isSome = true ∨ s.rst = true := by
  rw [cmdReady, busy]
  cases s.rst <;> simp

/-- A read taken while cmd_ready = 0 takes the next free value (R200). -/
theorem exec_read_hazard {i : Instr} {s : State} (hi : (∃ x, i = .readReg x) ∨ ∃ x, i = .readBuf x)
    (h : cmdReady s = false) : ∃ v, exec i s = .next { s with rdData := v, draws := s.draws + 1 } := by
  obtain ⟨v, hv⟩ := exec_read hi s
  exact ⟨Config.hazardRead s.draws, (hv s.rdData).trans (congrArg _ (sampleRead_hazard v s h))⟩

/-- Settles O27: both reads are `exec_read_hazard`. -/
theorem hazardReadsCompleteWithSomeValue : Obligations.HazardReadsCompleteWithSomeValue := by
  unfold Obligations.HazardReadsCompleteWithSomeValue
  intro i s h
  have hready : cmdReady s = false := (cmdReady_eq_false_iff s).2 h
  exact ⟨exec_read_hazard (.inl ⟨i, rfl⟩) hready, exec_read_hazard (.inr ⟨i, rfl⟩) hready⟩

/-- The host's read, as a step, while cmd_ready = 0 (R200). -/
theorem step_read_hazard {s : State} {q : ReadWord} {rest : List HostAction}
    (hin : s.inputs = .present (.read q) :: rest) (h : cmdReady s = false) :
    ∃ v, step s = .next { s with rdData := v, draws := s.draws + 1, inputs := rest } := by
  obtain ⟨v, hv⟩ := exec_read_hazard (s := { s with inputs := rest }) (decodeRead_isRead q) h
  exact ⟨v, (step_run (nextTurn_present_read hin)).trans hv⟩

/-! ### Reset -/

section Turns

variable {s : State} {w : CommandWord} {rest : List HostAction}

theorem nextTurn_raiseRst (h : s.inputs = .raiseRst :: rest) :
    nextTurn s = .settle (resetPacker { s with inputs := rest, rst := true }) := by
  simp only [nextTurn, h]

theorem nextTurn_releaseRst (h : s.inputs = .releaseRst :: rest) :
    nextTurn s = .settle { s with inputs := rest, rst := false } := by
  simp only [nextTurn, h]

/-- A command presented while rst = 1 is not accepted: the edge resets the packer (R190, R192). -/
theorem commandTurn_reset (hrst : s.rst = true) :
    commandTurn w rest s = .settle (resetPacker { s with inputs := rest }) := by
  simp [commandTurn, hrst]

/-- A command offered while rst = 1 is not accepted: the edge resets the packer (R190, R192). -/
theorem offerTurn_reset (hrst : s.rst = true) : offerTurn w s = .settle (resetPacker s) := by
  simp [offerTurn, hrst]

/-- Either way of putting up a command while rst = 1 ends in the reset packer (R192). -/
theorem step_command_reset (hin : s.inputs = .present (.command w) :: rest ∨ s.inputs = .offer w :: rest)
    (hrst : s.rst = true) : step s = .next (resetPacker { s with inputs := rest }) := by
  obtain hin | hin := hin
  · exact step_settle ((nextTurn_present_command hin).trans (commandTurn_reset hrst))
  · exact step_settle ((nextTurn_offer hin).trans (offerTurn_reset hrst))

end Turns

/-- Reset empties the stream (R191). -/
@[simp] theorem resetPacker_stream (s : State) : (resetPacker s).stream = [] := by simp [State.stream]

/-- Settles O29: raising rst ends in `resetPacker`, which is `clearStream` with no command in flight and no byte written. -/
theorem resetClearsEveryRegister : Obligations.ResetClearsEveryRegister := by
  unfold Obligations.ResetClearsEveryRegister
  intro s rest hin
  exact ⟨resetPacker { s with inputs := rest, rst := true }, clearStream s, step_settle (nextTurn_raiseRst hin),
    resetPacker_atReset _, rfl, resetPacker_stream _, rfl, rfl, exec_clear s, rfl⟩

/-- Settles O30: a command meets `step_command_reset`, a read `step_read_hazard`, and the release leaves the registers at reset
with nothing in flight by `PortInv`, so that the command presented next is accepted and runs. -/
theorem noCommandIsAcceptedDuringReset : Obligations.NoCommandIsAcceptedDuringReset := by
  unfold Obligations.NoCommandIsAcceptedDuringReset
  intro s w q rest hrst hp
  have hready : cmdReady s = false := (cmdReady_eq_false_iff s).2 (.inr hrst)
  refine ⟨hready, fun hin => ?_, fun hin => step_read_hazard hin hready, fun hin => ?_⟩
  · exact ⟨_, step_command_reset hin hrst, resetPacker_atReset _, rfl, hrst, rfl⟩
  · obtain ⟨hreg, hfl⟩ := hp hrst
    refine ⟨_, step_settle (nextTurn_releaseRst hin), hreg, ?_, (cmdReady_iff _).2 ⟨rfl, hfl⟩, ?_⟩
    · rw [busy, hfl, Option.isSome_none]
    · exact step_run ((nextTurn_present_command rfl).trans (commandTurn_ready rfl hfl))

/-! ### Latency -/

/-- A run takes its first step. -/
theorem run_succ_of_next {M : Host.Core} {s t : M.State} (h : M.step s = .next t) (k : Nat) : M.run (k + 1) s = M.run k t := by
  rw [Host.Core.run, h]

/-- A run of one step is that step. -/
theorem run_one (M : Host.Core) (s : M.State) : M.run 1 s = M.step s := by
  rw [Host.Core.run]
  cases M.step s <;> rfl

/-- Reads taken while cmd_ready = 0 change only what was sampled and the count of free values (R200). -/
theorem run_reads_hazard (qs : List ReadWord) {rest : List HostAction} {s : State}
    (hin : s.inputs = qs.map (fun q => .present (.read q)) ++ rest) (h : cmdReady s = false) :
    ∃ v, ∀ k, Host.Core.run core (qs.length + k) s =
      Host.Core.run core k { s with inputs := rest, rdData := v, draws := s.draws + qs.length } := by
  induction qs generalizing s with
  | nil =>
    obtain rfl : s.inputs = rest := hin
    exact ⟨s.rdData, fun k => by rw [List.length_nil, Nat.zero_add, Nat.add_zero]⟩
  | cons q qs ih =>
    rw [List.map_cons, List.cons_append] at hin
    obtain ⟨v, hv⟩ := step_read_hazard hin h
    obtain ⟨v', hv'⟩ := @ih { s with rdData := v, draws := s.draws + 1, inputs := _ } rfl h
    refine ⟨v', fun k => ?_⟩
    rw [List.length_cons, Nat.add_right_comm, run_succ_of_next (M := core) hv, hv' k, Nat.add_assoc, Nat.add_comm 1]

/-- At an idle edge with rst = 0 a command in flight completes (R198). -/
theorem step_idle_completes {s : State} {w : CommandWord} {rest : List HostAction} (hin : s.inputs = .idle :: rest)
    (hrst : s.rst = false) (hfl : s.inFlight = some w) :
    step s = exec (decodeCommand w) { s with inputs := rest, inFlight := none } :=
  step_run ((nextTurn_idle hin).trans (idleTurn_completes hrst hfl))

/-- Settles O35: the offer is accepted (O32), the reads leave the command in flight (`run_reads_hazard`), and the idle edge
completes it in the state it was accepted in, but for what the reads took. -/
theorem latencyDoesNotChangeTheResult : Obligations.LatencyDoesNotChangeTheResult := by
  unfold Obligations.LatencyDoesNotChangeTheResult
  intro s w qs rest hready hin
  obtain ⟨hrst, hfl⟩ := (cmdReady_iff s).1 hready
  have hoffer := step_settle ((nextTurn_offer hin).trans (offerTurn_ready hrst hfl))
  obtain ⟨v, hreads⟩ := @run_reads_hazard qs (.idle :: rest) { s with inFlight := some w, inputs := _ } rfl
    ((cmdReady_eq_false_iff _).2 (.inl rfl))
  refine ⟨v, (run_succ_of_next (M := core) hoffer _).trans ((hreads 1).trans ((run_one core _).trans ?_))⟩
  exact Eq.trans (step_idle_completes rfl hrst rfl) (by rw [← hfl])

end Sys2Proof.Machine
end
